-- ==== Sys2Proof/Word.lean ====
section
/-! DEFINITION. The widths of the data the block moves: the 32-bit accumulator and response, the 8-bit
input octet, the 10-bit command word (00_scope.md R3, R4). -/

namespace Sys2Proof

/-- A 32-bit unsigned value: the accumulator, every intermediate and every response (R3, `ACC_WIDTH`). -/
abbrev Word32 := BitVec 32

/-- One input octet, 0 to 255 (R3, `BYTE_WIDTH`). -/
abbrev Byte := BitVec 8

/-- One command word of format `C`, bit 9 most significant (R30, `CMD_WIDTH`). -/
abbrev CommandWord := BitVec 10

end Sys2Proof
end

