-- ==== Sys2Proof/Config.lean ====
section
/-! DEFINITION. The block's parameters (00_scope.md R3). The source fixes every value but one, and a model
must not generalise over them; the one open parameter, `PRE_RESET_STATE`, is a free value. -/

namespace Sys2Proof.Config

/-- `ADD_BIAS`: the constant added to each ingested octet. -/
abbrev addBias : Word32 := 1#32

/-- `MIX_SHL`: the left shift of the mix. -/
abbrev mixShl : Nat := 10

/-- `MIX_SHR`: the right shift of the mix. -/
abbrev mixShr : Nat := 6

/-- `FIN_SHL1`: the first left shift of the base postprocess. -/
abbrev finShl1 : Nat := 3

/-- `FIN_SHR`: the right shift of the base postprocess. -/
abbrev finShr : Nat := 11

/-- `FIN_SHL2`: the second left shift of the base postprocess. -/
abbrev finShl2 : Nat := 15

/-- `REMAP_FROM`: the working value the never-zero remap replaces. -/
abbrev remapFrom : Word32 := 0#32

/-- `REMAP_TO`: what the never-zero remap replaces it by. -/
abbrev remapTo : Word32 := 1#32

/-- `EMPTY_DIGEST`: the response of the primary finalize when no byte was ingested. -/
abbrev emptyDigest : Word32 := 0#32

/-- `RESET_ACC`: the accumulator after reset. -/
abbrev resetAcc : Word32 := 0#32

/-- `NE` after reset (10_state.md R19): no byte has been ingested. -/
abbrev resetNe : Bool := false

/-- `DIGEST_SIZE`, in bytes (R3, R64). -/
abbrev digestSize : Nat := 4

/-- `BLOCK_SIZE`, in bytes (R3, R64). -/
abbrev blockSize : Nat := 1

/-- `CMD_WIDTH`, in bits (R3, R30). -/
abbrev cmdWidth : Nat := 10

/-- `PRE_RESET_STATE`, its accumulator, at the `k`-th time power is applied: any value (R3, R81; log entry 5).
A free value: it has no body. -/
opaque preResetAcc : Nat → Word32

/-- `PRE_RESET_STATE`, its `NE`, at the `k`-th time power is applied: any value (R3, R81; log entry 5).
A free value: it has no body. -/
opaque preResetNe : Nat → Bool

end Sys2Proof.Config
end

