-- ==== Sys2Proof/Machine/State.lean ====
section
/-! DEFINITION. The state of one engine (10_state.md R10, R11, R17, R18), the reset state (R19), the state
before the first reset (70_reset_and_hazards.md R81), and the reasons a step can stop (none does). -/

namespace Sys2Proof.Machine

/-- What the host can present to the block in one slot of the interface (70_reset_and_hazards.md R83). -/
inductive PortEvent where
  /-- One command word at the command port. -/
  | command (w : CommandWord)
  /-- Hardware reset, with the command word presented together with it, if there is one (60_exceptions.md R73). -/
  | reset (coinciding : Option CommandWord)
  deriving DecidableEq, Repr

/-- One engine and its ports. The block itself holds `acc` and `ne` and nothing else (10_state.md R17);
`presented` and `responses` stand for the ports of 70_reset_and_hazards.md R83 (log entries 2 and 3). -/
structure State where
  /-- `ACC`, the 32-bit accumulator (R10). -/
  acc : Word32
  /-- `NE`, true iff at least one `UPD` has executed since the last reset (R11; log entry 1). -/
  ne : Bool
  /-- What the host presents at the reset input and the command port and the block has not yet taken,
  earliest first (R26, R27, R83). -/
  presented : List PortEvent
  /-- The words the response port has delivered, earliest first (R34, R66, R83). -/
  responses : List Word32
  deriving DecidableEq, Repr

/-- The reasons a step can fault: none. `Step` has no fault outcome and no stuck outcome (60_exceptions.md R70;
log entry 6). Nobody raises one. Safe. -/
inductive Fault where
  deriving DecidableEq, Repr

/-- The reasons a step can be refused. `Step` has no refusal (60_exceptions.md R70; log entry 6). -/
inductive Refusal where
  /-- Raised by an arm of `exec` that has no meaning yet. No arm raises it. Safe. -/
  | notModelled (mnemonic : String)
  deriving DecidableEq, Repr

/-- The machine right after hardware reset: `ACC = 0x00000000` and `NE = 0` (10_state.md R19). Nothing is
presented and nothing has been responded (log entry 4). -/
def State.reset : State where
  acc := Config.resetAcc
  ne := Config.resetNe
  presented := []
  responses := []

/-- The machine when power is applied for the `k`-th time, before any reset: `PRE_RESET_STATE`, a free value
(70_reset_and_hazards.md R81; log entry 5). -/
def State.powerUp (k : Nat) : State where
  acc := Config.preResetAcc k
  ne := Config.preResetNe k
  presented := []
  responses := []

end Sys2Proof.Machine
end

