-- ==== Sys2Proof/Machine/Flags.lean ====
section
/-! DEFINITION. The one flag of the block, `NE` (10_state.md R11). No other flag exists: no carry, overflow,
zero or sign (R11, 60_exceptions.md R71). -/

namespace Sys2Proof.Machine

/-- Write `NE`. -/
def State.withNe (s : State) (v : Bool) : State := { s with ne := v }

/-- The empty-input test of the primary finalize: on `NE`, not on `ACC = 0` (41_finalize.md R52, D1). -/
def State.isEmpty (s : State) : Bool := !s.ne

end Sys2Proof.Machine
end

