-- ==== Sys2Proof/Machine/Operands.lean ====
section
/-! DEFINITION. Operand forms. There is one: the 8-bit immediate of `UPD` (30_encoding.md R32). -/

namespace Sys2Proof.Machine

/-- `zext_32(b)`: the octet as a 32-bit value with bits 31 to 8 zero (00_scope.md R5). -/
def zext32 (b : Byte) : Word32 := b.setWidth 32

/-- What the add step adds to `ACC`: `zext_32(b) + 1`, in 1 to 256, so the addition cannot wrap
(30_encoding.md R32, 40_ingest.md R41). -/
def addend (b : Byte) : Word32 := zext32 b + Config.addBias

end Sys2Proof.Machine
end

