-- ==== Sys2Proof/Machine/Ops.lean ====
section
/-! DEFINITION. The operations the meanings share: the arithmetic primitives (00_scope.md R5), `Mix32`
(40_ingest.md R40), `Fin32` (41_finalize.md R50), the never-zero remap (R52), writing the accumulator,
responding, and returning to the reset state. -/

namespace Sys2Proof.Machine

/-- `add32(a, b)`: the sum modulo 2^32; the carry out of bit 31 is discarded (R5, R71). -/
def add32 (a b : Word32) : Word32 := a + b

/-- `shl32(a, k)`: bits shifted past bit 31 are discarded, zeros enter at bit 0 (R5). -/
def shl32 (a : Word32) (k : Nat) : Word32 := a <<< k

/-- `shr32(a, k)`: the unsigned right shift, zeros enter at bit 31 (R5). -/
def shr32 (a : Word32) (k : Nat) : Word32 := a >>> k

/-- `xor32(a, b)`: bitwise exclusive-or (R5). -/
def xor32 (a b : Word32) : Word32 := a ^^^ b

/-- `Mix32`, the avalanche mix (40_ingest.md R40). The right shift is applied to the sum, not to `v`. -/
def mix32 (v : Word32) : Word32 :=
  let t1 := add32 v (shl32 v Config.mixShl)
  xor32 t1 (shr32 t1 Config.mixShr)

/-- `Fin32`, the base postprocess (41_finalize.md R50). Each line uses the value of the line before. -/
def fin32 (v : Word32) : Word32 :=
  let f1 := add32 v (shl32 v Config.finShl1)
  let f2 := xor32 f1 (shr32 f1 Config.finShr)
  add32 f2 (shl32 f2 Config.finShl2)

/-- The never-zero remap `nz`: 0 is replaced by 1, every other value stays (41_finalize.md R52,
42_control_and_sequences.md R66). -/
def neverZero (w0 : Word32) : Word32 := if w0 = Config.remapFrom then Config.remapTo else w0

/-- Write `ACC`. -/
def State.withAcc (s : State) (v : Word32) : State := { s with acc := v }

/-- Deliver one word at the response port (30_encoding.md R34). -/
def State.respond (s : State) (d : Word32) : State := { s with responses := s.responses ++ [d] }

/-- Return the engine to its initial state, both writes in one step: what `RST` and hardware reset share
(42_control_and_sequences.md R60, 70_reset_and_hazards.md R80). -/
def State.toInitial (s : State) : State := (s.withAcc Config.resetAcc).withNe Config.resetNe

end Sys2Proof.Machine
end

