-- ==== Sys2Proof/Machine/Control.lean ====
section
/-! DEFINITION. Control: the command `RST` (42_control_and_sequences.md R60). There is no control transfer, no
system command and no privileged command (R65). -/

namespace Sys2Proof.Machine

/-- `RST`: `ACC <- 0x00000000`, `NE <- 0`, no response (R60). -/
def execRst (s : State) : Host.Outcome State Fault Refusal := .next s.toInitial

end Sys2Proof.Machine
end

