-- ==== Sys2Proof/Machine/Finalize.lean ====
section
/-! DEFINITION. Finalization: `FINB`, the base policy (41_finalize.md R51), and `FINZ`, the never-zero policy
(R52). Neither writes `ACC` or `NE` (R53). -/

namespace Sys2Proof.Machine

/-- The never-zero pipeline: one extra mix, the remap, the base postprocess (R52). -/
def neverZeroDigest (acc : Word32) : Word32 := fin32 (neverZero (mix32 acc))

/-- The word `FINZ` responds: `EMPTY_DIGEST` if nothing was ingested since reset, else the pipeline (R52). -/
def State.finzDigest (s : State) : Word32 :=
  if s.isEmpty then Config.emptyDigest else neverZeroDigest s.acc

/-- `FINB`: respond `Fin32(ACC)`; `NE` is not consulted (R51). -/
def execFinb (s : State) : Host.Outcome State Fault Refusal := .next (s.respond (fin32 s.acc))

/-- `FINZ`: respond the never-zero digest (R52). -/
def execFinz (s : State) : Host.Outcome State Fault Refusal := .next (s.respond s.finzDigest)

end Sys2Proof.Machine
end

