-- ==== Sys2Proof/Machine/Ingest.lean ====
section
/-! DEFINITION. Ingestion: the per-byte update engine, `UPD` (40_ingest.md R41). -/

namespace Sys2Proof.Machine

/-- The accumulator after one octet: the add step, then the mix (R41). -/
def ingestByte (acc : Word32) (b : Byte) : Word32 := mix32 (add32 acc (addend b))

/-- `UPD b`: `ACC <- Mix32(add32(ACC, zext_32(b) + 1))`, `NE <- 1`, no response (R41). -/
def execUpd (b : Byte) (s : State) : Host.Outcome State Fault Refusal :=
  .next ((s.withAcc (ingestByte s.acc b)).withNe true)

end Sys2Proof.Machine
end

