-- ==== Sys2Proof/Syntax.lean ====
section
/-! DEFINITION. The command set: one constructor per row of spec/opcode_table.json (30_encoding.md R31). -/

namespace Sys2Proof

/-- The four commands, complete (R31, R65). No command has a register or a memory operand (R32). -/
inductive Instr where
  /-- `RST`: return the engine to its initial state (42_control_and_sequences.md R60). -/
  | rst
  /-- `UPD imm8`: ingest one byte (40_ingest.md R41). -/
  | upd (b : Byte)
  /-- `FINZ`: finalize with the never-zero policy (41_finalize.md R52). -/
  | finz
  /-- `FINB`: finalize with the base policy (41_finalize.md R51). -/
  | finb
  deriving DecidableEq, Repr

/-- The mnemonic the opcode table gives a command. -/
def Instr.mnemonic : Instr → String
  | .rst => "RST"
  | .upd _ => "UPD"
  | .finz => "FINZ"
  | .finb => "FINB"

end Sys2Proof
end

