-- ==== Sys2Proof/Machine/Dispatch.lean ====
section
/-! DEFINITION. One arm per command of the opcode map (30_encoding.md R31, 42_control_and_sequences.md R66). -/

namespace Sys2Proof.Machine

def exec (i : Instr) (s : State) : Host.Outcome State Fault Refusal :=
  match i with
  | .rst => Sys2Proof.Machine.execRst s
  | .upd b => Sys2Proof.Machine.execUpd b s
  | .finz => Sys2Proof.Machine.execFinz s
  | .finb => Sys2Proof.Machine.execFinb s

end Sys2Proof.Machine
end

