-- ==== Sys2Proof/WellFormed.lean ====
section
/-! DEFINITION. What makes a command, and a number offered as an operand or as a command word, well formed. -/

namespace Sys2Proof

/-- A number offered as `imm8` is an octet, 0 to 255; outside that it is an assembly error, not a
truncated operand (30_encoding.md R35). -/
def operandInRange (n : Nat) : Bool := n < 256

/-- A number offered as a command word fits the 10 bits of format `C` (30_encoding.md R30). -/
def commandWordInRange (w : Nat) : Bool := w < 2 ^ Config.cmdWidth

/-- Every command is well formed: no command word is illegal or reserved (R33), the type of `UPD`'s operand
admits exactly the 256 legal octets (R32), and the other three commands have no operand. -/
def Instr.wellFormed : Instr → Bool
  | .rst => true
  | .upd b => operandInRange b.toNat
  | .finz => true
  | .finb => true

end Sys2Proof
end

