-- ==== Sys2Proof/Decode.lean ====
section
/-! DEFINITION. The command encoding (30_encoding.md R30 to R33): the decoder, total on all 1024 words, the
rejection by name of a number that is no 10-bit word, the encoder, and the opcode table as data. -/

namespace Sys2Proof

/-- The field `imm8`, bits 7 to 0 (R30). -/
def immField (w : CommandWord) : Byte := w.extractLsb' 0 8

/-- The field `op`, bits 9 and 8 (R30). -/
def opField (w : CommandWord) : BitVec 2 := w.extractLsb' 8 2

/-- The decoding rule of R31: the command is the row with that `op`; `imm8` is read by `UPD` only and
ignored by the other three (R33). Total on all 1024 words. -/
def decode (w : CommandWord) : Instr :=
  match w.getLsbD 9, w.getLsbD 8 with
  | false, false => .rst
  | false, true => .upd (immField w)
  | true, false => .finz
  | true, true => .finb

/-- Why a number is not decoded. -/
inductive DecodeError where
  /-- It has a bit above bit 9, so it is no word of the 10-bit command port (R30; log entry 7). Safe. -/
  | widerThanCommandWord
  deriving DecidableEq, Repr

/-- Decode a number: refused by name unless it is a 10-bit word. -/
def decodeNumber (w : Nat) : Except DecodeError Instr :=
  if commandWordInRange w then .ok (decode (BitVec.ofNat 10 w)) else .error .widerThanCommandWord

/-- What the decoder reads from an instruction whose bits are `w`, bit 0 the least significant bit of the one
10-bit word; the width `nbits` of the table's row adds nothing, since there is one width (R30). -/
def decodeTableWord (_nbits w : Nat) : Option Instr :=
  match decodeNumber w with
  | .ok i => some i
  | .error .widerThanCommandWord => none

/-- Put the two fields of format `C` together, `op` in the more significant position (R4, R30). -/
def joinFields (op : BitVec 2) (imm8 : Byte) : CommandWord := op ++ imm8

/-- The canonical word of a command (R31): `RST` 000, `UPD b` 100 + b, `FINZ` 200, `FINB` 300. -/
def encode : Instr → CommandWord
  | .rst => joinFields 0b00#2 0#8
  | .upd b => joinFields 0b01#2 b
  | .finz => joinFields 0b10#2 0#8
  | .finb => joinFields 0b11#2 0#8

/-- One row of the opcode map: its mnemonic, and the match and mask columns of R31. -/
structure OpcodeRow where
  mnemonic : String
  pattern : CommandWord
  mask : CommandWord
  deriving DecidableEq, Repr

/-- The opcode map of R31. -/
def opcodeTable : List OpcodeRow :=
  [⟨"RST", 0x000#10, 0x300#10⟩, ⟨"UPD", 0x100#10, 0x300#10⟩, ⟨"FINZ", 0x200#10, 0x300#10⟩,
    ⟨"FINB", 0x300#10, 0x300#10⟩]

/-- A word belongs to a row if its masked bits are the row's: only the mask `0x300` takes part (R31). -/
def OpcodeRow.accepts (r : OpcodeRow) (w : CommandWord) : Bool := w &&& r.mask == r.pattern

end Sys2Proof
end

