-- ==== Sys2Proof/Machine/Port.lean ====
section
/-! DEFINITION. The host interface at transaction level (70_reset_and_hazards.md R83): taking the next event the
host presents, hardware reset, and presenting events. -/

namespace Sys2Proof.Machine

/-- What the host does in one slot, as the block sees it, and the state once it is taken; none if the host
presents nothing (R85). -/
def State.takeEvent (s : State) : Option (PortEvent × State) :=
  match s.presented with
  | [] => none
  | e :: rest => some (e, { s with presented := rest })

/-- Hardware reset: the effect of `RST`; a command presented with it is not executed and gets no response
(R80, 60_exceptions.md R73). -/
def hardwareReset (_coinciding : Option CommandWord) (s : State) : Host.Outcome State Fault Refusal :=
  .next s.toInitial

/-- The host presents further events, after those already presented (20_memory.md R27). -/
def State.present (s : State) (es : List PortEvent) : State := { s with presented := s.presented ++ es }

/-- The host presents a command so that the block takes it next. -/
def State.presentFirst (s : State) (w : CommandWord) : State :=
  { s with presented := .command w :: s.presented }

end Sys2Proof.Machine
end

