-- ==== Sys2Proof/Machine/Step.lean ====
section
/-! DEFINITION. One step: take what the host presents next and do it (42_control_and_sequences.md R66,
70_reset_and_hazards.md R80, R85). -/

namespace Sys2Proof.Machine

/-- One step of the engine. A command word is decoded and executed; hardware reset returns the engine to its
initial state; with nothing presented the state holds. -/
def step (s : State) : Host.Outcome State Fault Refusal :=
  match s.takeEvent with
  | none => .next s
  | some (.reset c, s') => hardwareReset c s'
  | some (.command w, s') => exec (decode w) s'

/-- `s` with the instruction whose bits are `w` presented at the command port, ahead of everything else the host
presents, so that the very next step runs it. A number that is no 10-bit word cannot be presented and changes
nothing (log entries 7 and 8). -/
def State.withFetchWord (s : State) (_nbits w : Nat) : State :=
  if commandWordInRange w then s.presentFirst (BitVec.ofNat 10 w) else s

end Sys2Proof.Machine
end

