-- ==== Sys2Proof/Machine/Sequences.lean ====
section
/-! DEFINITION. Command sequences and pseudo-instructions (30_encoding.md R36, 42_control_and_sequences.md R61 to
R64, R66) and the serialisation of a digest (20_memory.md R22). -/

namespace Sys2Proof.Machine

/-- `CONSTRUCT` on a running engine: the single command `RST` (R61). -/
def construct : List Instr := [.rst]

/-- `INGEST x`: one `UPD` for each byte, first to last; no command at all for the empty sequence (R62, R21). -/
def ingest (x : List Byte) : List Instr := x.map .upd

/-- The count `INGEST x` reports: the host or assembler computes it, the block does not (R62). -/
def ingestCount (x : List Byte) : Nat := x.length

/-- `CHECKSUM x`: `RST`; `INGEST x`; `FINZ` (R63). -/
def checksum (x : List Byte) : List Instr := .rst :: (ingest x ++ [.finz])

/-- `DigestBytes(d)`: big-endian, byte 0 first (R22). -/
def digestBytes (d : Word32) : List Byte :=
  [d.extractLsb' 24 8, d.extractLsb' 16 8, d.extractLsb' 8 8, d.extractLsb' 0 8]

/-- `EMITBE`: the last response as four bytes, by the host; none if there has been no response (R36; log
entry 10). -/
def State.emitBE (s : State) : Option (List Byte) := s.responses.getLast?.map digestBytes

/-- A command sequence executed from first to last (R66). -/
def execAll : List Instr → State → Host.Outcome State Fault Refusal
  | [], s => .next s
  | i :: is, s =>
    match exec i s with
    | .next t => execAll is t
    | .fault r => .fault r
    | .refused r => .refused r

/-- A command sequence as the host presents it: the canonical word of each command (R31). -/
def commandEvents (is : List Instr) : List PortEvent := is.map fun i => .command (encode i)

end Sys2Proof.Machine
end

