-- ==== Sys2Proof/Machine/Assembler.lean ====
section
/-! DEFINITION. The assembler's input language and a disassembler (30_encoding.md R35, R36). Text is a list of
characters. What the spec does not give of the language is in log entry 9. -/

namespace Sys2Proof.Machine

/-- What one line of assembler text stands for (R35, R36). -/
inductive AsmItem where
  /-- A command. -/
  | command (i : Instr)
  /-- The count `INGEST` reports (R36, R62). -/
  | count (n : Nat)
  /-- The constant `DIGEST_SIZE` or `BLOCK_SIZE` stands for (R36, R64). -/
  | constant (n : Nat)
  /-- `EMITBE`: the host serialises the last response (R36). -/
  | emitBE
  deriving DecidableEq, Repr

/-- Why a line is not assembled. -/
inductive AsmError where
  /-- The first word is no mnemonic. -/
  | unknownMnemonic
  /-- The operand is not of the form the mnemonic takes. -/
  | badOperand
  /-- A value outside 0 to 255: an assembly error, not a truncated operand (R35). -/
  | operandOutOfRange
  /-- Something other than a comment follows. -/
  | trailingText
  deriving DecidableEq, Repr

/-- The single quote. -/
def singleQuote : Char := Char.ofNat 0x27

/-- The double quote. -/
def doubleQuote : Char := Char.ofNat 0x22

def isBlank (c : Char) : Bool := c == ' ' || c == '\t' || c == '\r'

def skipBlanks (cs : List Char) : List Char := cs.dropWhile isBlank

/-- Only blanks and a comment are left (R35: `;` starts a comment). -/
def onlyComment (cs : List Char) : Bool :=
  match skipBlanks cs with
  | [] => true
  | c :: _ => c == ';'

/-- A character that can stand in a mnemonic word. -/
def isWordChar (c : Char) : Bool := c.isAlphanum || c == '_'

/-- The pieces of a text between the characters `p` picks out. -/
def splitAtEach (p : Char → Bool) : List Char → List (List Char)
  | [] => [[]]
  | c :: cs =>
    if p c then [] :: splitAtEach p cs
    else
      match splitAtEach p cs with
      | [] => [[c]]
      | w :: ws => (c :: w) :: ws

/-- The sixteen digits, each at the place of its value (R35: `0x00` to `0xFF`). -/
def digitTable : List Char := "0123456789ABCDEF".toList

/-- The value of a digit: its place in the table, a letter in either case (log entry 9). -/
def digitValue (c : Char) : Option Nat := digitTable.idxOf? c.toUpper

/-- The number a list of digits stands for in the given base, most significant first; each digit must be below
the base. -/
def readDigits (base : Nat) (soFar : Nat) : List Char → Option Nat
  | [] => some soFar
  | c :: cs =>
    match digitValue c with
    | some d => if d < base then readDigits base (base * soFar + d) cs else none
    | none => none

/-- The value of a number word: `0x` and hexadecimal digits, or decimal digits (R35). -/
def readNumber : List Char → Option Nat
  | [] => none
  | '0' :: 'x' :: ds => if ds.isEmpty then none else readDigits 16 0 ds
  | ds => readDigits 10 0 ds

/-- The ASCII code of a character (R35). -/
def asciiCode (c : Char) : Option Nat := if c.toNat < 128 then some c.toNat else none

/-- A number word at the head of a text, with what follows it (R35). -/
def readNumberWord (cs : List Char) : Option (Nat × List Char) :=
  (readNumber (cs.takeWhile isWordChar)).map fun n => (n, cs.dropWhile isWordChar)

/-- The `imm8` operand: a number, or one ASCII character in single quotes; with what follows it (R35).
The model's choice (log entry 9): between single quotes `;` is the character 0x3B and starts no comment, and the
single quote itself may stand there. -/
def readImm (cs : List Char) : Option (Nat × List Char) :=
  match cs with
  | q :: c :: q' :: rest =>
    if q == singleQuote && q' == singleQuote then (asciiCode c).map fun n => (n, rest) else readNumberWord cs
  | _ => readNumberWord cs

/-- The bytes of a string, one per ASCII character (R36). -/
def asciiBytes : List Char → Option (List Byte)
  | [] => some []
  | c :: cs =>
    match asciiCode c, asciiBytes cs with
    | some n, some bs => some (BitVec.ofNat 8 n :: bs)
    | _, _ => none

/-- The bytes of a byte list, two hexadecimal digits each (R36). -/
def hexBytes : List (List Char) → Option (List Byte)
  | [] => some []
  | w :: ws =>
    match w, hexBytes ws with
    | [h, l], some bs => (readDigits 16 0 [h, l]).map fun n => BitVec.ofNat 8 n :: bs
    | _, _ => none

/-- The byte-sequence operand of `INGEST` and `CHECKSUM`: a string in double quotes, or hexadecimal bytes
separated by blanks (R36). The model's choice (log entry 9): inside a string `;` is a character and starts no
comment. -/
def readBytes (cs : List Char) : Except AsmError (List Byte) :=
  match cs with
  | q :: rest =>
    if q == doubleQuote then
      match rest.dropWhile (· != doubleQuote), asciiBytes (rest.takeWhile (· != doubleQuote)) with
      | _ :: after, some bs => if onlyComment after then .ok bs else .error .trailingText
      | _, _ => .error .badOperand
    else
      match hexBytes ((splitAtEach isBlank (cs.takeWhile (· != ';'))).filter (!·.isEmpty)) with
      | some bs => .ok bs
      | none => .error .badOperand
  | [] => .ok []

/-- A line that takes no operand. -/
def withoutOperand (rest : List Char) (items : List AsmItem) : Except AsmError (List AsmItem) :=
  if onlyComment rest then .ok items else .error .trailingText

/-- An `UPD` line; a value outside 0 to 255 is an error (R35). -/
def assembleUpd (rest : List Char) : Except AsmError (List AsmItem) :=
  match readImm rest with
  | none => .error .badOperand
  | some (n, after) =>
    if !operandInRange n then .error .operandOutOfRange
    else withoutOperand after [.command (.upd (BitVec.ofNat 8 n))]

/-- The items of `INGEST x`: its commands and the count it reports (R36, R62). -/
def ingestItems (x : List Byte) : List AsmItem := (ingest x).map .command ++ [.count (ingestCount x)]

/-- Assemble one line. Mnemonics are case-insensitive (R35), and so are those of the pseudo-instructions. The model's
choice (log entry 9): no blank need separate the mnemonic from an operand or a comment that begins with neither a
letter, a digit nor `_`, so `UPD'a'` and `RST;` are read, and `UPD61` is no mnemonic. -/
def assembleLine (line : List Char) : Except AsmError (List AsmItem) :=
  let cs := skipBlanks line
  let name := (cs.takeWhile isWordChar).map Char.toUpper
  let rest := skipBlanks (cs.dropWhile isWordChar)
  if onlyComment cs then .ok []
  else if name = "RST".toList then withoutOperand rest [.command .rst]
  else if name = "UPD".toList then assembleUpd rest
  else if name = "FINZ".toList then withoutOperand rest [.command .finz]
  else if name = "FINB".toList then withoutOperand rest [.command .finb]
  else if name = "CONSTRUCT".toList then withoutOperand rest (construct.map .command)
  else if name = "INGEST".toList then (readBytes rest).map ingestItems
  else if name = "CHECKSUM".toList then
    (readBytes rest).map fun x => [.command .rst] ++ ingestItems x ++ [.command .finz]
  else if name = "DIGEST_SIZE".toList then withoutOperand rest [.constant Config.digestSize]
  else if name = "BLOCK_SIZE".toList then withoutOperand rest [.constant Config.blockSize]
  else if name = "EMITBE".toList then withoutOperand rest [.emitBE]
  else .error .unknownMnemonic

/-- Assemble lines from first to last, stopping at the first error. -/
def assembleLines : List (List Char) → Except AsmError (List AsmItem)
  | [] => .ok []
  | l :: ls =>
    match assembleLine l with
    | .error e => .error e
    | .ok items =>
      match assembleLines ls with
      | .error e => .error e
      | .ok more => .ok (items ++ more)

/-- Assemble a text, one command per line (R35). -/
def assemble (text : List Char) : Except AsmError (List AsmItem) := assembleLines (splitAtEach (· == '\n') text)

/-- The commands among the items, in order. -/
def asmCommands : List AsmItem → List Instr
  | [] => []
  | .command i :: items => i :: asmCommands items
  | .count _ :: items => asmCommands items
  | .constant _ :: items => asmCommands items
  | .emitBE :: items => asmCommands items

/-- The digit of a value below 16, upper case. -/
def digitOf (n : Nat) : Char := digitTable.getD n '0'

/-- Print a command in the assembler's language. R33 lets a disassembler print a non-canonical word as the same
mnemonic; that this one does, and the form it prints, are the model's choice (log entry 9). -/
def disassemble (w : CommandWord) : List Char :=
  match decode w with
  | .rst => "RST".toList
  | .upd b => "UPD 0x".toList ++ [digitOf (b.toNat / 16), digitOf (b.toNat % 16)]
  | .finz => "FINZ".toList
  | .finb => "FINB".toList

end Sys2Proof.Machine
end

