-- ==== Sys2Proof/Machine/Reference.lean ====
section
/-! DEFINITION. The functions the spec states beside the commands: `Step` as one total function
(42_control_and_sequences.md R66), `Acc` (40_ingest.md R45), `Digest` (41_finalize.md R58), the inverses of the two
mixing functions (40_ingest.md R42, 41_finalize.md R54), and the message a sequence of events leaves (20_memory.md
R27). The meanings of the commands do not use them; statements compare the two. -/

namespace Sys2Proof.Machine

/-- The spec's `State = (ACC, NE)` (R7, R66). -/
abbrev EngineState := Word32 × Bool

/-- `Step : State × Command -> State × Option Word32`, the five lines of R66. -/
def specStep : EngineState → Instr → EngineState × Option Word32
  | _, .rst => ((0#32, false), none)
  | (acc, _), .upd b => ((mix32 (add32 acc (zext32 b + 1#32)), true), none)
  | (acc, ne), .finb => ((acc, ne), some (fin32 acc))
  | (acc, false), .finz => ((acc, false), some 0#32)
  | (acc, true), .finz => ((acc, true), some (fin32 (neverZero (mix32 acc))))

/-- A run of a command sequence: the final state and the responses in order (R66). -/
def specRun : EngineState → List Instr → EngineState × List Word32
  | e, [] => (e, [])
  | e, i :: is =>
    let r := specStep e i
    let rest := specRun r.1 is
    (rest.1, r.2.toList ++ rest.2)

/-- `Acc(s, x)`: the accumulator after ingesting `x` from accumulator `s`, the left fold of R45. -/
def accAfter (s : Word32) (x : List Byte) : Word32 :=
  x.foldl (fun a b => mix32 (add32 a (zext32 b + 1#32))) s

/-- `Digest(x)`: the full digest function (R58). -/
def digest (x : List Byte) : Word32 :=
  if x.isEmpty then 0#32 else fin32 (neverZero (mix32 (accAfter 0#32 x)))

/-- `Mix32inv` (R42). -/
def mix32Inv (r : Word32) : Word32 :=
  (r ^^^ (r >>> 6) ^^^ (r >>> 12) ^^^ (r >>> 18) ^^^ (r >>> 24) ^^^ (r >>> 30)) * 0xC00FFC01#32

/-- `Fin32inv` (R54). -/
def fin32Inv (y : Word32) : Word32 :=
  let f2 := y * 0x3FFF8001#32
  (f2 ^^^ (f2 >>> 11) ^^^ (f2 >>> 22)) * 0x38E38E39#32

/-- The bytes ingested since the last reset, after one more event (R11, R27, R82). -/
def messageAfter (m : List Byte) : PortEvent → List Byte
  | .reset _ => []
  | .command w =>
    match decode w with
    | .rst => []
    | .upd b => m ++ [b]
    | .finz => m
    | .finb => m

/-- The response to an event, when the bytes `m` have been ingested since the last reset (R27, R34, R73). -/
def responseAt (m : List Byte) : PortEvent → Option Word32
  | .reset _ => none
  | .command w =>
    match decode w with
    | .rst => none
    | .upd _ => none
    | .finz => some (digest m)
    | .finb => some (fin32 (accAfter 0#32 m))

/-- The message left by a sequence of events, when `m` had been ingested before it (R27). -/
def messageOf (m : List Byte) (es : List PortEvent) : List Byte := es.foldl messageAfter m

/-- The responses to a sequence of events, in order, when `m` had been ingested before it (R27). -/
def responsesTo : List Byte → List PortEvent → List Word32
  | _, [] => []
  | m, e :: es => (responseAt m e).toList ++ responsesTo (messageAfter m e) es

end Sys2Proof.Machine
end

