-- ==== Sys2Proof/Machine/System.lean ====
section
/-! DEFINITION. Several engines side by side (60_exceptions.md R79): each has its own state and its own ports,
and a step is a step of one of them. -/

namespace Sys2Proof.Machine

/-- Engine number `n` of a system takes one step; the others are not touched. A number no engine has changes
nothing (log entry 11). -/
def stepEngine (n : Nat) (engines : List State) : Host.Outcome (List State) Fault Refusal :=
  match engines[n]? with
  | none => .next engines
  | some s =>
    match step s with
    | .next t => .next (engines.set n t)
    | .fault r => .fault r
    | .refused r => .refused r

/-- The engines named in a schedule step one after another. -/
def runEngines : List Nat → List State → Host.Outcome (List State) Fault Refusal
  | [], engines => .next engines
  | n :: ns, engines =>
    match stepEngine n engines with
    | .next engines' => runEngines ns engines'
    | .fault r => .fault r
    | .refused r => .refused r

end Sys2Proof.Machine
end

