-- ==== Sys2Proof/Safety.lean ====
section
/-! DEFINITION. What the claims call a safe state: the invariant of 10_state.md R12, and the states reachable from
a reset. -/

namespace Sys2Proof.Machine

/-- `NE = 0` implies `ACC = 0` (R12). False of some states before the first reset. -/
def State.EmptyMeansZero (s : State) : Prop := s.ne = false → s.acc = 0#32

/-- The engine holds the message `m`: `ACC` is `Acc(0, m)` and `NE` says whether `m` is nonempty (40_ingest.md R45,
10_state.md R11). -/
def State.Holds (s : State) (m : List Byte) : Prop := s.acc = accAfter 0#32 m ∧ s.ne = decide (0 < m.length)

/-- A state whose next step goes on (60_exceptions.md R70). -/
def State.GoesOn (s : State) : Prop := ∃ t, step s = .next t

/-- The states reachable from a reset (R12): right after a reset, whatever the ports then show; after a step;
and after the host presents something. -/
inductive Reachable : State → Prop where
  | reset (presented : List PortEvent) (responses : List Word32) :
      Reachable { State.reset with presented := presented, responses := responses }
  | step {s t : State} : Reachable s → Machine.step s = .next t → Reachable t
  | present {s : State} (es : List PortEvent) :
      Reachable s → Reachable { s with presented := s.presented ++ es }

end Sys2Proof.Machine
end

