-- ==== Sys2Proof/Certificates/Slice0/Obligations.lean ====
section
/-! DEFINITION. The statements for the provers. Each docstring names the rule of the spec it formalises. -/

open Sys2Proof Sys2Proof.Machine

/-! ## Arithmetic -/

/-- The table of primitives (00_scope.md R5), over the natural numbers the words stand for. -/
def Obligations.PrimitivesAreArithmeticModulo : Prop :=
  ∀ (a b : Word32) (k : Nat) (c : Byte),
    (add32 a b).toNat = (a.toNat + b.toNat) % 2 ^ 32 ∧
    (k ≤ 31 → (shl32 a k).toNat = a.toNat * 2 ^ k % 2 ^ 32) ∧
    (k ≤ 31 → (shr32 a k).toNat = a.toNat / 2 ^ k) ∧
    (∀ i < 32, (xor32 a b).getLsbD i = Bool.xor (a.getLsbD i) (b.getLsbD i)) ∧
    (zext32 c).toNat = c.toNat ∧ (addend c).toNat = c.toNat + 1

/-- `Mix32` (40_ingest.md R40): the two lines over natural numbers, the four examples, and its two uses, in `UPD`
and at the head of `FINZ`. -/
def Obligations.MixIsAddThenXorOfTheSum : Prop :=
  (∀ v : Word32,
    let t1 := v.toNat * 1025 % 2 ^ 32
    (mix32 v).toNat = t1 ^^^ (t1 / 2 ^ 6)) ∧
  mix32 0x00000000#32 = 0x00000000#32 ∧ mix32 0x00000001#32 = 0x00000411#32 ∧
  mix32 0x00000062#32 = 0x00018E43#32 ∧ mix32 0xFFFFFFFF#32 = 0xFC000410#32 ∧
  (∀ (b : Byte) (s : State), ∃ t, exec (.upd b) s = .next t ∧ t.acc = mix32 (s.acc + (b.setWidth 32 + 1#32))) ∧
  (∀ s : State, s.ne = true → mix32 s.acc ≠ 0#32 →
    exec .finz s = .next { s with responses := s.responses ++ [fin32 (mix32 s.acc)] })

/-- `Fin32` (41_finalize.md R50): the three lines over natural numbers and the four examples; it never writes
`ACC` in the two commands that use it. -/
def Obligations.FinIsThreeStepPostprocess : Prop :=
  (∀ v : Word32,
    let f1 := v.toNat * 9 % 2 ^ 32
    let f2 := f1 ^^^ (f1 / 2 ^ 11)
    (fin32 v).toNat = f2 * 32769 % 2 ^ 32) ∧
  fin32 0x00000000#32 = 0x00000000#32 ∧ fin32 0x00000001#32 = 0x00048009#32 ∧
  fin32 0x00000800#32 = 0x2404C809#32 ∧ fin32 0xFFFFFFFF#32 = 0xFFE40008#32 ∧
  (∀ s : State, ∃ t u, exec .finb s = .next t ∧ exec .finz s = .next u ∧ t.acc = s.acc ∧ u.acc = s.acc)

/-- `Mix32` is a bijection with the stated inverse, and only 0 goes to 0 (40_ingest.md R42; marked derived there). -/
def Obligations.MixIsBijectiveWithStatedInverse : Prop :=
  Function.Bijective mix32 ∧ (∀ v, mix32Inv (mix32 v) = v) ∧ (∀ r, mix32 (mix32Inv r) = r) ∧
  (∀ v, mix32 v = 0#32 ↔ v = 0#32) ∧
  (∀ r : Word32, mix32Inv r =
    (r ^^^ (r >>> 6) ^^^ (r >>> 12) ^^^ (r >>> 18) ^^^ (r >>> 24) ^^^ (r >>> 30)) * 0xC00FFC01#32) ∧
  1025 * 0xC00FFC01 % 2 ^ 32 = 1 ∧
  mix32Inv 0x00018E43#32 = 0x00000062#32 ∧ mix32Inv 0x00000001#32 = 0xC00FFC01#32

/-- `Fin32` is a bijection with the stated inverse, only 0 goes to 0, and a `FINB` response determines `ACC`
(41_finalize.md R54; marked derived there). -/
def Obligations.FinIsBijectiveWithStatedInverse : Prop :=
  Function.Bijective fin32 ∧ (∀ v, fin32Inv (fin32 v) = v) ∧ (∀ y, fin32 (fin32Inv y) = y) ∧
  (∀ v, fin32 v = 0#32 ↔ v = 0#32) ∧
  (∀ y : Word32,
    let f2 := y * 0x3FFF8001#32
    fin32Inv y = (f2 ^^^ (f2 >>> 11) ^^^ (f2 >>> 22)) * 0x38E38E39#32) ∧
  9 * 0x38E38E39 % 2 ^ 32 = 1 ∧ 32769 * 0x3FFF8001 % 2 ^ 32 = 1 ∧
  (∀ s : State, ∃ t d, exec .finb s = .next t ∧ t.responses = s.responses ++ [d] ∧ s.acc = fin32Inv d) ∧
  fin32Inv 0x00000001#32 = 0xCE380E1E#32 ∧ fin32Inv 0xC31517C4#32 = 0x0622702A#32

/-! ## The commands: encoding, result, frame, corner cases -/

/-- `UPD imm8` (40_ingest.md R41), every item: its words, the result of every field of State for every state and
octet, the corner cases and the worked example. The result is also its completion and its frame. -/
def Obligations.UpdAddsByteAndMixes : Prop :=
  (∀ b : Byte, (encode (.upd b)).toNat = 0x100 + b.toNat ∧ decode (BitVec.ofNat 10 (0x100 + b.toNat)) = .upd b) ∧
  (∀ (b : Byte) (s : State), exec (.upd b) s = .next
    { acc := mix32 (BitVec.ofNat 32 (s.acc.toNat + (b.toNat + 1))), ne := true,
      presented := s.presented, responses := s.responses }) ∧
  (∀ r ∈ ([(0x00000000#32, 0x00#8, 0x00000411#32), (0x00000000#32, 0xFF#8, 0x00041104#32),
      (0xFFFFFFFF#32, 0x00#8, 0x00000000#32), (0xFFFFFFFF#32, 0xFF#8, 0x0003F30C#32),
      (0xFFFFFFFE#32, 0x00#8, 0xFC000410#32), (0x00000000#32, 0x61#8, 0x00018E43#32)] :
        List (Word32 × Byte × Word32)),
    ∀ s : State, s.acc = r.1 → exec (.upd r.2.1) s = .next { s with acc := r.2.2, ne := true })

/-- `RST` (42_control_and_sequences.md R60), every item: its words, the result of every field of State for every
state, that it changes nothing in the reset state, that it and hardware reset alone clear `NE`, and the worked
example. The result is also its completion and its frame. -/
def Obligations.RstReturnsToInitialState : Prop :=
  encode .rst = 0x000#10 ∧ (∀ imm8 : Byte, decode (0b00#2 ++ imm8) = .rst) ∧
  (∀ s : State, exec .rst s = .next
    { acc := 0x00000000#32, ne := false, presented := s.presented, responses := s.responses }) ∧
  (∀ s : State, s.acc = 0#32 → s.ne = false → exec .rst s = .next s) ∧
  (∀ (i : Instr) (s t : State), exec i s = .next t → s.ne = true → t.ne = false → i = .rst) ∧
  (∀ s t : State, step s = .next t → s.ne = true → t.ne = false →
    (∃ c rest, s.presented = .reset c :: rest) ∨ (∃ w rest, s.presented = .command w :: rest ∧ decode w = .rst)) ∧
  (∀ s : State, s.acc = 0x9B1AABFA#32 → s.ne = true →
    execAll [.rst, .finz] s = .next
      { s with acc := 0x00000000#32, ne := false, responses := s.responses ++ [0x00000000#32] })

/-- `FINB` (41_finalize.md R51), every item: its words, the result of every field of State for every state (the
response is `Fin32(ACC)` whatever `NE` is), the zero case and the worked example. The result is also its
completion and its frame. -/
def Obligations.FinbRespondsBasePostprocess : Prop :=
  encode .finb = 0x300#10 ∧ (∀ imm8 : Byte, decode (0b11#2 ++ imm8) = .finb) ∧
  (∀ s : State, exec .finb s = .next
    { acc := s.acc, ne := s.ne, presented := s.presented, responses := s.responses ++ [fin32 s.acc] }) ∧
  (∀ s : State, exec .finb s = .next { s with responses := s.responses ++ [0x00000000#32] } ↔ s.acc = 0#32) ∧
  (∀ s : State, s.acc = 0x00018E43#32 →
    exec .finb s = .next { s with responses := s.responses ++ [0x00DB819B#32] })

/-- `FINZ` (41_finalize.md R52), every item: its words, the result of every field of State for every state (the test
is on `NE`), the corner cases and the worked example. The result is also its completion and its frame. The rule's
remark on a test on `ACC` is `Obligations.TestOnAccAgreesUnderInvariant`. -/
def Obligations.FinzRespondsNeverZeroDigest : Prop :=
  encode .finz = 0x200#10 ∧ (∀ imm8 : Byte, decode (0b10#2 ++ imm8) = .finz) ∧
  (∀ s : State, exec .finz s = .next
    { acc := s.acc, ne := s.ne, presented := s.presented,
      responses := s.responses ++
        [if s.ne = false then 0x00000000#32
         else fin32 (if mix32 s.acc = 0#32 then 0x00000001#32 else mix32 s.acc)] }) ∧
  (∀ r ∈ ([(0x00000000#32, false, 0x00000000#32), (0x00000000#32, true, 0x00048009#32),
      (0xC00FFC01#32, true, 0x00048009#32), (0x00018E43#32, true, 0xC31517C4#32)] :
        List (Word32 × Bool × Word32)),
    ∀ s : State, s.acc = r.1 → s.ne = r.2.1 →
      exec .finz s = .next { s with responses := s.responses ++ [r.2.2] })

/-- The remark of 41_finalize.md R52 that a test on `ACC = 0` would agree with the test on `NE` in every state except
`(ACC = 0, NE = 1)`, where `FINZ` responds `0x00048009`. The model reads it as being about states in which `NE = 0`
implies `ACC = 0` (log entry 12), and gives a state without that invariant in which the two tests differ. -/
def Obligations.TestOnAccAgreesUnderInvariant : Prop :=
  (∀ s : State, s.EmptyMeansZero → ¬(s.acc = 0#32 ∧ s.ne = true) →
    exec .finz s = .next { s with responses := s.responses ++
      [if s.acc = 0#32 then 0x00000000#32
       else fin32 (if mix32 s.acc = 0#32 then 0x00000001#32 else mix32 s.acc)] }) ∧
  (∀ s : State, s.acc = 0#32 → s.ne = true →
    exec .finz s = .next { s with responses := s.responses ++ [0x00048009#32] }) ∧
  (∃ s : State, ¬s.EmptyMeansZero ∧ exec .finz s = .next { s with responses := s.responses ++ [0x00000000#32] } ∧
    fin32 (if mix32 s.acc = 0#32 then 0x00000001#32 else mix32 s.acc) ≠ 0x00000000#32)

/-- The access table (10_state.md R18; marked derived there): for each command and for hardware reset, what it writes, what it leaves,
what it responds, and, by comparing two states that differ elsewhere, what it does not read; and that there is no
other command. -/
def Obligations.AccessTableIsComplete : Prop :=
  (∀ i : Instr, i = .rst ∨ (∃ b, i = .upd b) ∨ i = .finz ∨ i = .finb) ∧
  (∀ s t : State, exec .rst s = .next t → t.acc = 0#32 ∧ t.ne = false ∧ t.responses = s.responses) ∧
  (∀ c (s : State), ∃ t, hardwareReset c s = .next t ∧ t.acc = 0#32 ∧ t.ne = false ∧ t.responses = s.responses) ∧
  (∀ b (s t s' t' : State), exec (.upd b) s = .next t → exec (.upd b) s' = .next t' →
    t.ne = true ∧ t.responses = s.responses ∧ (s.acc = s'.acc → t.acc = t'.acc)) ∧
  (∀ s t s' t' : State, exec .finz s = .next t → exec .finz s' = .next t' →
    t.acc = s.acc ∧ t.ne = s.ne ∧ (∃ d, t.responses = s.responses ++ [d] ∧
      (s.acc = s'.acc → s.ne = s'.ne → t'.responses = s'.responses ++ [d]))) ∧
  (∀ s t s' t' : State, exec .finb s = .next t → exec .finb s' = .next t' →
    t.acc = s.acc ∧ t.ne = s.ne ∧ (∃ d, t.responses = s.responses ++ [d] ∧
      (s.acc = s'.acc → t'.responses = s'.responses ++ [d])))

/-- The frame of all four commands: what each leaves unchanged. No command takes or adds anything presented;
`FINZ` and `FINB` leave `ACC` and `NE`; `RST` and `UPD` leave the responses; `FINZ` and `FINB` add exactly one
response after those already delivered. -/
def Obligations.CommandsLeaveTheRestUnchanged : Prop :=
  ∀ (i : Instr) (s t : State), exec i s = .next t →
    t.presented = s.presented ∧
    (i = .finz ∨ i = .finb → t.acc = s.acc ∧ t.ne = s.ne ∧
      t.responses.take s.responses.length = s.responses ∧ t.responses.length = s.responses.length + 1) ∧
    ((i = .rst ∨ ∃ b, i = .upd b) → t.responses = s.responses)

/-! ## Encoding -/

/-- Decoding what the encoder writes gives the command back, for every well-formed command, with every operand
(30_encoding.md R31; 95_test_vectors.md section 2.9); so no two commands share a word. -/
def Obligations.DecodeInvertsEncode : Prop :=
  (∀ i : Instr, i.wellFormed = true → decode (encode i) = i) ∧
  (∀ i : Instr, i.wellFormed = true → decodeNumber (encode i).toNat = .ok i) ∧
  (∀ i j : Instr, i.wellFormed = true → j.wellFormed = true → encode i = encode j → i = j)

/-- The opcode map (30_encoding.md R31): for every one of the 1024 words exactly one row of the table accepts it,
and the decoder gives that row's command; the `op` values, and the canonical word of each command. -/
def Obligations.EveryWordBelongsToOneRow : Prop :=
  (∀ w : CommandWord, ∃ r, opcodeTable.filter (·.accepts w) = [r] ∧ r.mnemonic = (decode w).mnemonic) ∧
  (∀ w : CommandWord, opField w = 0b00#2 → decode w = .rst) ∧
  (∀ w : CommandWord, opField w = 0b01#2 → decode w = .upd (BitVec.ofNat 8 (w.toNat % 256))) ∧
  (∀ w : CommandWord, opField w = 0b10#2 → decode w = .finz) ∧
  (∀ w : CommandWord, opField w = 0b11#2 → decode w = .finb) ∧
  (∀ w : CommandWord, (opField w).toNat = w.toNat / 256) ∧
  encode .rst = 0x000#10 ∧ (∀ b : Byte, (encode (.upd b)).toNat = 0x100 + b.toNat) ∧
  encode .finz = 0x200#10 ∧ encode .finb = 0x300#10

/-- No word is illegal, and `imm8` is ignored outside `UPD` (30_encoding.md R33): a non-canonical word decodes
and executes as the canonical word of the same `op`, which is what the encoder writes; no command leaves every
state as it was; and with nothing presented the state holds. -/
def Obligations.ImmediateIsIgnoredOutsideUpd : Prop :=
  (∀ (op : BitVec 2) (imm8 : Byte), op ≠ 0b01#2 →
    decode (joinFields op imm8) = decode (joinFields op 0#8) ∧
    encode (decode (joinFields op imm8)) = joinFields op 0#8 ∧
    ∀ s : State, step (s.presentFirst (joinFields op imm8)) = step (s.presentFirst (joinFields op 0#8))) ∧
  (∀ imm8 : Byte, encode (decode (joinFields 0b01#2 imm8)) = joinFields 0b01#2 imm8) ∧
  (∀ w : CommandWord, ∃ op imm8, w = joinFields op imm8) ∧
  (∀ w : CommandWord, (decode w).wellFormed = true) ∧
  (∀ i : Instr, ∃ s : State, exec i s ≠ .next s) ∧
  (∀ s : State, s.presented = [] → step s = .next s)

/-- Words written out from the encoding table (95_test_vectors.md V-C1 to V-C10) decode to the commands they stand
for. A sanity statement. -/
def Obligations.WrittenWordsDecode : Prop :=
  decode 0b0000000000#10 = .rst ∧ decode 0b0010101011#10 = .rst ∧ decode 0b0011111111#10 = .rst ∧
  decode 0b0100000000#10 = .upd 0x00#8 ∧ decode 0b0101100001#10 = .upd 0x61#8 ∧
  decode 0b0111111111#10 = .upd 0xFF#8 ∧ decode 0b1000000000#10 = .finz ∧ decode 0b1001010101#10 = .finz ∧
  decode 0b1100000000#10 = .finb ∧ decode 0b1111111111#10 = .finb

/-! ## The step -/

/-- A step runs the decoded command: when the host presents a command word next, the step is `exec` of its
decoding, at the state in which that word has been taken. -/
def Obligations.StepRunsDecodedCommand : Prop :=
  ∀ (s : State) (w : CommandWord) (rest : List PortEvent), s.presented = .command w :: rest →
    step s = exec (decode w) { s with presented := rest }

/-- A word placed by `withFetchWord` is run by the very next step, whatever else is presented (log entry 4). -/
def Obligations.FetchWordRunsNext : Prop :=
  ∀ (s : State) (nbits w : Nat) (i : Instr), decodeTableWord nbits w = some i →
    step (s.withFetchWord nbits w) = exec i s

/-- Hardware reset wins over a command presented with it: the state becomes (0, 0), the command is not executed
and gets no response (60_exceptions.md R73). -/
def Obligations.HardwareResetWins : Prop :=
  ∀ (s : State) (c : Option CommandWord) (rest : List PortEvent), s.presented = .reset c :: rest →
    step s = .next { acc := 0#32, ne := false, presented := rest, responses := s.responses }

/-- The effect of hardware reset is exactly that of `RST`, and both finalize commands respond 0 after it
(70_reset_and_hazards.md R80). -/
def Obligations.HardwareResetEqualsRst : Prop :=
  ∀ (s : State) (c : Option CommandWord), hardwareReset c s = exec .rst s ∧
    (∀ t, hardwareReset c s = .next t → t.acc = 0#32 ∧ t.ne = false ∧
      execAll [.finz, .finb] t = .next { t with responses := s.responses ++ [0x00000000#32, 0x00000000#32] }) ∧
    (∀ rest, s.presented = .reset c :: rest → step s = exec .rst { s with presented := rest })

/-- What reset leaves (10_state.md R19): the values after `RST`, after hardware reset and in `State.reset`, the
responses of both finalize commands there, and that before the first reset the state is `PRE_RESET_STATE`. -/
def Obligations.ResetLeavesZeroAndEmpty : Prop :=
  State.reset.acc = 0x00000000#32 ∧ State.reset.ne = false ∧
  (∀ s : State, ∃ t, exec .rst s = .next t ∧ t.acc = 0x00000000#32 ∧ t.ne = false) ∧
  (∀ c (s : State), ∃ t, hardwareReset c s = .next t ∧ t.acc = 0x00000000#32 ∧ t.ne = false) ∧
  (∀ s : State, s.acc = 0x00000000#32 → s.ne = false →
    exec .finz s = .next { s with responses := s.responses ++ [0x00000000#32] } ∧
    exec .finb s = .next { s with responses := s.responses ++ [0x00000000#32] }) ∧
  (∀ k, (State.powerUp k).acc = Config.preResetAcc k ∧ (State.powerUp k).ne = Config.preResetNe k)

/-- Before the first reset (70_reset_and_hazards.md R81): whatever the free value `PRE_RESET_STATE` is, the
finalize commands answer from it as their rules say, and a reset presented first leaves the reset state. -/
def Obligations.PreResetStateIsAnsweredAndLeft : Prop :=
  ∀ (k : Nat) (es : List PortEvent),
    execAll [.finz, .finb] (State.powerUp k) = .next { State.powerUp k with
      responses := [if Config.preResetNe k = false then 0x00000000#32
        else fin32 (neverZero (mix32 (Config.preResetAcc k))), fin32 (Config.preResetAcc k)] } ∧
    (∀ c, step ((State.powerUp k).present (.reset c :: es)) = .next { State.reset with presented := es }) ∧
    step ((State.powerUp k).present (.command (encode .rst) :: es)) = .next { State.reset with presented := es }

/-- No command can fail, and neither can a step (60_exceptions.md R70): every command, every one of the 1024 words
and every step, in every state, ends in a next state with at most one response more. -/
def Obligations.NothingFaultsOrIsRefused : Prop :=
  (∀ (i : Instr) (s : State), ∃ t, exec i s = .next t ∧
    (t.responses = s.responses ∨ ∃ d, t.responses = s.responses ++ [d])) ∧
  (∀ (w : CommandWord) (s : State), ∃ t, step (s.presentFirst w) = .next t) ∧
  (∀ s : State, ∃ t, step s = .next t ∧
    (t.responses = s.responses ∨ ∃ d, t.responses = s.responses ++ [d]))

/-! ## The invariant -/

/-- `NE = 0` implies `ACC = 0` right after reset, whatever the ports show. -/
def Obligations.InvariantHoldsAfterReset : Prop :=
  State.reset.EmptyMeansZero ∧
  ∀ (p : List PortEvent) (r : List Word32), ({ State.reset with presented := p, responses := r } : State).EmptyMeansZero

/-- Every step keeps the invariant that `NE = 0` implies `ACC = 0`, from every state that has it. -/
def Obligations.EveryStepKeepsEmptyMeansZero : Prop :=
  ∀ s t : State, s.EmptyMeansZero → step s = .next t → t.EmptyMeansZero

/-- The invariant in the words of 10_state.md R12, marked derived there: it holds of every state reachable from a reset; its converse is
false; and a state before the first reset need not have it. -/
def Obligations.ReachableEmptyMeansZero : Prop :=
  (∀ s : State, Reachable s → s.ne = false → s.acc = 0#32) ∧
  (∃ s : State, Reachable s ∧ s.acc = 0#32 ∧ s.ne = true) ∧
  (∃ s t : State, ¬s.EmptyMeansZero ∧ s.presented = [.command (encode .finb)] ∧ step s = .next t ∧ ¬t.EmptyMeansZero)

/-- Every step keeps the engine holding its message, the message advanced by what the step takes (20_memory.md R27,
10_state.md R11, 40_ingest.md R45): if the engine holds `m`, then after a step that takes an event it holds `m` so
advanced, and has responded what that event asks of `m` and nothing else; with nothing presented it holds `m` still.
And the reset state holds the empty message. -/
def Obligations.EveryStepAdvancesTheHeldMessage : Prop :=
  (∀ (s t : State) (m : List Byte) (e : PortEvent) (rest : List PortEvent),
    s.Holds m → s.presented = e :: rest → step s = .next t →
    t.Holds (messageAfter m e) ∧ t.presented = rest ∧ t.responses = s.responses ++ (responseAt m e).toList) ∧
  (∀ (s t : State) (m : List Byte), s.Holds m → s.presented = [] → step s = .next t →
    t.Holds m ∧ t.responses = s.responses) ∧
  State.reset.Holds []

/-! ## Laws of the update and of finalization -/

/-- Laws of `UPD` (40_ingest.md R43; marked derived there): for a fixed `ACC` different bytes give different results; from `ACC = 0` the
result is not 0; the result is 0 exactly when `ACC = 2^32 - 1 - b`, one of the 256 values from `0xFFFFFF00` up. -/
def Obligations.UpdSeparatesBytes : Prop :=
  (∀ (b b' : Byte) (s t t' : State), exec (.upd b) s = .next t → exec (.upd b') s = .next t' →
    t.acc = t'.acc → b = b') ∧
  (∀ (b : Byte) (s t : State), exec (.upd b) s = .next t →
    (s.acc = 0#32 → t.acc ≠ 0#32) ∧ (t.acc = 0#32 ↔ s.acc.toNat = 2 ^ 32 - 1 - b.toNat)) ∧
  (∀ s : State, (∃ b t, exec (.upd b) s = .next t ∧ t.acc = 0#32) ↔ 0xFFFFFF00 ≤ s.acc.toNat)

/-- What must not be assumed of `UPD` (40_ingest.md R44, its exhibited cases; marked derived there): fixed points, one of them reached
from reset; and two nonempty inputs that return the accumulator to 0. -/
def Obligations.UpdCanRepeatOrReachZero : Prop :=
  (∀ r ∈ ([(0x20002020#32, 0x61#8), (0x64406553#32, 0x61#8), (0xC33F3F20#32, 0xFF#8)] : List (Word32 × Byte)),
    ∀ s : State, s.acc = r.1 → exec (.upd r.2) s = .next { s with ne := true }) ∧
  (∀ r ∈ ([([0xF0#8, 0xF1#8, 0xCB#8, 0x00#8, 0x00#8, 0x09#8], 0x20002020#32),
      ([0x1A#8, 0x55#8, 0x81#8, 0xB5#8], 0x00000000#32), ([0x1E#8, 0x4A#8, 0xAC#8, 0xB1#8], 0x00000000#32)] :
        List (List Byte × Word32)),
    execAll (ingest r.1) State.reset = .next { State.reset with acc := r.2, ne := true })

/-- Finalizing changes no state, repeats, and can be deleted (41_finalize.md R53): a finalize command answers the
same twice in a row, its answer is a function of `(ACC, NE)`, for `FINB` of `ACC` alone, and with it deleted
from a sequence the final state is the same and the other responses stay in place. -/
def Obligations.FinalizeIsPureAndDeletable : Prop :=
  (∀ f : Instr, f = .finz ∨ f = .finb →
    (∀ s : State, ∃ d, execAll [f, f] s = .next { s with responses := s.responses ++ [d, d] }) ∧
    (∀ (is js : List Instr) (s : State), ∃ t u v d out, execAll is s = .next t ∧
      execAll (is ++ f :: js) s = .next u ∧ execAll (is ++ js) s = .next v ∧
      u.acc = v.acc ∧ u.ne = v.ne ∧ u.presented = v.presented ∧
      u.responses = t.responses ++ d :: out ∧ v.responses = t.responses ++ out)) ∧
  (∀ s s' : State, s.acc = s'.acc → s.ne = s'.ne → ∃ d,
    exec .finz s = .next { s with responses := s.responses ++ [d] } ∧
    exec .finz s' = .next { s' with responses := s'.responses ++ [d] }) ∧
  (∀ s s' : State, s.acc = s'.acc → ∃ d,
    exec .finb s = .next { s with responses := s.responses ++ [d] } ∧
    exec .finb s' = .next { s' with responses := s'.responses ++ [d] })

/-- The never-zero guarantee (41_finalize.md R55; marked derived there): `FINZ` responds 0 if and only if `NE = 0`; so the digest of a
byte sequence ingested since the last reset is 0 if and only if the sequence is empty. -/
def Obligations.NonemptyInputNeverDigestsToZero : Prop :=
  (∀ s : State, exec .finz s = .next { s with responses := s.responses ++ [0x00000000#32] } ↔ s.ne = false) ∧
  (∀ s : State, s.ne = true → ∃ d : Word32, 1 ≤ d.toNat ∧ d.toNat ≤ 2 ^ 32 - 1 ∧
    exec .finz s = .next { s with responses := s.responses ++ [d] }) ∧
  (∀ (x : List Byte) (s : State), ∃ t d, execAll (.rst :: (ingest x ++ [.finz])) s = .next t ∧
    t.responses = s.responses ++ [d] ∧ (d = 0#32 ↔ x = [])) ∧
  (∀ s : State, execAll [.rst, .finz] s = .next
    { s with acc := 0#32, ne := false, responses := s.responses ++ [0x00000000#32] })

/-- `FINB` responds 0 if and only if `ACC = 0`, so also on the empty sequence and on a nonempty one that returns
the accumulator to 0 (41_finalize.md R56; marked derived there). -/
def Obligations.BaseDigestIsZeroOnlyAtZero : Prop :=
  (∀ s t : State, exec .finb s = .next t → (t.responses = s.responses ++ [0x00000000#32] ↔ s.acc = 0#32)) ∧
  (∀ (x : List Byte) (s : State), accAfter 0#32 x = 0#32 →
    ∃ t, execAll (.rst :: (ingest x ++ [.finb])) s = .next t ∧ t.responses = s.responses ++ [0x00000000#32]) ∧
  accAfter 0#32 [] = 0#32 ∧ accAfter 0#32 [0x1A#8, 0x55#8, 0x81#8, 0xB5#8] = 0#32

/-- The documented collision (41_finalize.md R57; marked derived there): over the states with `NE = 1`, `FINZ` gives `0x00048009` for
exactly `ACC = 0` and `ACC = 0xC00FFC01`, every other nonzero word for exactly one `ACC`, and never 0; the remap
fires only at `ACC = 0`; and both states of the pair are reached from reset. -/
def Obligations.RemapMakesExactlyOneCollision : Prop :=
  (∀ s : State, s.ne = true →
    ((mix32 s.acc = 0#32 ↔ s.acc = 0#32) ∧
     (exec .finz s = .next { s with responses := s.responses ++ [0x00048009#32] } ↔
      s.acc = 0#32 ∨ s.acc = 0xC00FFC01#32) ∧
     exec .finz s ≠ .next { s with responses := s.responses ++ [0x00000000#32] })) ∧
  (∀ d : Word32, d ≠ 0#32 → d ≠ 0x00048009#32 → ∃ a : Word32, ∀ s : State, s.ne = true →
    (exec .finz s = .next { s with responses := s.responses ++ [d] } ↔ s.acc = a)) ∧
  mix32Inv 0x00000001#32 = 0xC00FFC01#32 ∧ fin32 0x00000001#32 = 0x00048009#32 ∧
  execAll (ingest [0x1A#8, 0x55#8, 0x81#8, 0xB5#8] ++ [.finz]) State.reset =
    .next { State.reset with acc := 0#32, ne := true, responses := [0x00048009#32] } ∧
  execAll (ingest [0xD4#8, 0x51#8, 0xAB#8, 0x00#8, 0x01#8, 0x2B#8] ++ [.finz]) State.reset =
    .next { State.reset with acc := 0xC00FFC01#32, ne := true, responses := [0x00048009#32] }

/-! ## Sequences -/

/-- Ingesting a sequence is the left fold of `UPD` over it (40_ingest.md R45): the recursion of `Acc`, the state
after `INGEST x` from any state and from reset, incremental consistency over a split, and a collision. -/
def Obligations.IngestIsTheFoldOfUpd : Prop :=
  (∀ a : Word32, accAfter a [] = a) ∧
  (∀ (a : Word32) (x : List Byte) (b : Byte),
    accAfter a (x ++ [b]) = mix32 (add32 (accAfter a x) (zext32 b + 1#32))) ∧
  (∀ (x : List Byte) (s : State), execAll (ingest x) s = .next
    { s with acc := accAfter s.acc x, ne := s.ne || decide (0 < x.length) }) ∧
  (∀ (x : List Byte) (s : State), execAll (.rst :: ingest x) s = .next
    { s with acc := accAfter 0#32 x, ne := decide (0 < x.length) }) ∧
  (∀ (a : Word32) (x y : List Byte), accAfter a (x ++ y) = accAfter (accAfter a x) y) ∧
  (∀ (x y : List Byte) (s : State), execAll (.rst :: (ingest x ++ ingest y ++ [.finz])) s =
    execAll (.rst :: (ingest (x ++ y) ++ [.finz])) s) ∧
  (∃ x y : List Byte, x ≠ y ∧ accAfter 0#32 x = accAfter 0#32 y)

/-- `CHECKSUM x` computes `Digest(x)` whatever state the engine was in, and leaves the engine holding the message
(42_control_and_sequences.md R63, 41_finalize.md R58, with the four reference digests). -/
def Obligations.ChecksumIsTheDigestFunction : Prop :=
  (∀ x : List Byte, checksum x = [.rst] ++ ingest x ++ [.finz]) ∧
  (∀ (x : List Byte) (s : State), execAll (checksum x) s = .next
    { s with acc := accAfter 0#32 x, ne := decide (0 < x.length), responses := s.responses ++ [digest x] }) ∧
  (∀ (x y : List Byte) (s : State), execAll (checksum x ++ ingest y) s = .next
    { s with acc := accAfter 0#32 (x ++ y), ne := decide (0 < (x ++ y).length),
             responses := s.responses ++ [digest x] }) ∧
  digest [] = 0x00000000#32 ∧
  (∀ x : List Byte, x ≠ [] → digest x = fin32 (if mix32 (accAfter 0#32 x) = 0#32 then 1#32
    else mix32 (accAfter 0#32 x))) ∧
  digest [0x61#8] = 0xC31517C4#32 ∧ digest [0x61#8, 0x62#8, 0x63#8] = 0xC3E39E2D#32 ∧
  digest [0x6D#8, 0x65#8, 0x73#8, 0x73#8, 0x61#8, 0x67#8, 0x65#8, 0x20#8, 0x64#8, 0x69#8, 0x67#8, 0x65#8, 0x73#8,
    0x74#8] = 0x434B78B4#32

/-- Without a reset between two messages the digest is that of their concatenation
(70_reset_and_hazards.md R82). -/
def Obligations.WithoutResetMessagesConcatenate : Prop :=
  ∀ (x y : List Byte) (s : State),
    execAll (checksum x ++ (ingest y ++ [.finz])) s = .next
      { s with acc := accAfter 0#32 (x ++ y), ne := decide (0 < (x ++ y).length),
               responses := s.responses ++ [digest x, digest (x ++ y)] } ∧
    execAll (checksum x ++ checksum y) s = .next
      { s with acc := accAfter 0#32 y, ne := decide (0 < y.length), responses := s.responses ++ [digest x, digest y] }

/-- The machine refines the spec's `Step` (42_control_and_sequences.md R66; marked derived there): each of its five lines; a command
sequence executed from any state ends in the state, and gives the responses, of the run of `Step`; and the same
sequence presented at the command port takes exactly as many steps as it has commands. -/
def Obligations.RunsRefineSpecStep : Prop :=
  (∀ (acc : Word32) (ne : Bool) (b : Byte),
    specStep (acc, ne) .rst = ((0#32, false), none) ∧
    specStep (acc, ne) (.upd b) = ((mix32 (add32 acc (zext32 b + 1#32)), true), none) ∧
    specStep (acc, ne) .finb = ((acc, ne), some (fin32 acc)) ∧
    specStep (acc, false) .finz = ((acc, false), some 0#32) ∧
    specStep (acc, true) .finz =
      ((acc, true), some (fin32 (if mix32 acc = 0#32 then 1#32 else mix32 acc)))) ∧
  (∀ (i : Instr) (s : State), exec i s = .next
    { s with acc := (specStep (s.acc, s.ne) i).1.1, ne := (specStep (s.acc, s.ne) i).1.2,
             responses := s.responses ++ (specStep (s.acc, s.ne) i).2.toList }) ∧
  (∀ (is : List Instr) (s : State), execAll is s = .next
    { s with acc := (specRun (s.acc, s.ne) is).1.1, ne := (specRun (s.acc, s.ne) is).1.2,
             responses := s.responses ++ (specRun (s.acc, s.ne) is).2 }) ∧
  (State.reset.acc, State.reset.ne) = (0#32, false) ∧
  (∀ (is : List Instr) (rest : List PortEvent) (s : State), s.presented = commandEvents is ++ rest →
    Host.Core.run Sys2Proof.core is.length s = execAll is { s with presented := rest })

/-- Every finalize reports exactly the bytes ingested since the last reset and none that follow, and the state is
the message's (20_memory.md R27, 10_state.md R11): for every sequence of events, commands in any word and hardware
resets, presented after a hardware reset to an engine in any state. -/
def Obligations.FinalizeReportsBytesSinceReset : Prop :=
  ∀ (es rest : List PortEvent) (c : Option CommandWord) (s : State),
    s.presented = .reset c :: (es ++ rest) →
    Host.Core.run Sys2Proof.core (es.length + 1) s = .next
      { acc := accAfter 0#32 (messageOf [] es), ne := decide (0 < (messageOf [] es).length),
        presented := rest, responses := s.responses ++ responsesTo [] es }

/-- The laws of sequences (42_control_and_sequences.md R67, items a to g; marked derived there). In item g the two
engines step in any schedule, with any steps of other engines between theirs, in which each of the two steps as often
as it has commands. -/
def Obligations.SequenceLawsHold : Prop :=
  (∀ (is : List Instr) (s s' : State), ∃ t t' out, execAll (.rst :: is) s = .next t ∧
    execAll (.rst :: is) s' = .next t' ∧ t.acc = t'.acc ∧ t.ne = t'.ne ∧
    t.responses = s.responses ++ out ∧ t'.responses = s'.responses ++ out) ∧
  (∀ (is : List Instr) (s : State), ∃ t u, execAll is s = .next t ∧
    execAll (is.filter fun i => decide (i ≠ .finz ∧ i ≠ .finb)) s = .next u ∧ t.acc = u.acc ∧ t.ne = u.ne) ∧
  (∀ (x : List Byte) (s t : State), execAll (.rst :: ingest x) s = .next t → (t.ne = true ↔ 0 < x.length)) ∧
  exec .finz State.reset = .next { State.reset with responses := [0x00000000#32] } ∧
  (∀ s : State, execAll [.rst, .finz] s = .next
    { s with acc := 0#32, ne := false, responses := s.responses ++ [0x00000000#32] }) ∧
  (∀ (x : List Byte) (s : State), (ingest x).length = x.length ∧ ingestCount x = x.length ∧
    ∃ t, execAll (ingest x) s = .next t) ∧
  digest [0x61#8, 0x62#8] ≠ digest [0x62#8, 0x61#8] ∧
  (∀ (is : List Instr) (n m : Nat) (schedule : List Nat) (engines : List State) (s : State),
    engines[n]? = some s → engines[m]? = some s → s.presented = commandEvents is →
    schedule.count n = is.length → schedule.count m = is.length →
    ∃ engines' t, runEngines schedule engines = .next engines' ∧ engines'[n]? = some t ∧ engines'[m]? = some t ∧
      execAll is { s with presented := [] } = .next t)

/-- Engines are independent (60_exceptions.md R79): a step of one is its own step, and no other engine changes. -/
def Obligations.EnginesShareNothing : Prop :=
  ∀ (n : Nat) (engines : List State), ∃ engines', stepEngine n engines = .next engines' ∧
    engines'.length = engines.length ∧
    (∀ m, m ≠ n → engines'[m]? = engines[m]?) ∧
    (∀ s, engines[n]? = some s → ∃ t, step s = .next t ∧ engines'[n]? = some t)

/-- There are no hazards (70_reset_and_hazards.md R86): a finalize directly after `UPD` sees the updated state, and
no later command disturbs a response already delivered. -/
def Obligations.ResponsesAreImmediateAndStay : Prop :=
  (∀ (b : Byte) (s : State), execAll [.upd b, .finz, .finb] s = .next
    { s with acc := accAfter s.acc [b], ne := true,
             responses := s.responses ++ [fin32 (neverZero (mix32 (accAfter s.acc [b]))), fin32 (accAfter s.acc [b])] }) ∧
  (∀ (b : Byte) (s : State), execAll [.rst, .upd b] s = .next { s with acc := accAfter 0#32 [b], ne := true }) ∧
  (∀ (is : List Instr) (s t : State), execAll is s = .next t →
    t.responses.take s.responses.length = s.responses)

/-! ## Pseudo-instructions and the assembler -/

/-- A digest is serialised big-endian (20_memory.md R22): byte `k` is bits `31 - 8k` down to `24 - 8k`; the example;
and `EMITBE` after a finalize serialises that finalize's response. -/
def Obligations.DigestBytesAreBigEndian : Prop :=
  (∀ d : Word32, (digestBytes d).length = 4 ∧ digestBytes d =
    [BitVec.ofNat 8 (d.toNat / 2 ^ 24), BitVec.ofNat 8 (d.toNat / 2 ^ 16), BitVec.ofNat 8 (d.toNat / 2 ^ 8),
      BitVec.ofNat 8 d.toNat]) ∧
  (∀ d e : Word32, digestBytes d = digestBytes e → d = e) ∧
  digestBytes 0xC31517C4#32 = [0xC3#8, 0x15#8, 0x17#8, 0xC4#8] ∧
  (∀ d : Word32, ingest (digestBytes d) = [.upd (d.extractLsb' 24 8), .upd (d.extractLsb' 16 8),
    .upd (d.extractLsb' 8 8), .upd (d.extractLsb' 0 8)]) ∧
  (∀ s t : State, exec .finb s = .next t → t.emitBE = some (digestBytes (fin32 s.acc))) ∧
  (∀ s t : State, exec .finz s = .next t → t.emitBE = some (digestBytes
    (if s.ne = false then 0#32 else fin32 (neverZero (mix32 s.acc)))))

/-- The pseudo-instructions expand as 42_control_and_sequences.md R61, R62 and R64 say, also when read through the
assembler's lines (30_encoding.md R36): `CONSTRUCT` is `RST` and leaves the state of hardware reset; `INGEST x` is one
`UPD` a byte in order, never fails, reports its length, changes nothing for the empty sequence and knows no call
boundary; `DIGEST_SIZE` and `BLOCK_SIZE` are the constants 4 and 1 and no command. Two of the assembler's lines are the
model's choice: that `CHECKSUM` reports the count of its `INGEST` (log entry 9), and that an `EMITBE` line may stand
with no finalize before it (log entry 10). -/
def Obligations.PseudoInstructionsExpand : Prop :=
  construct = [.rst] ∧ (∀ c (s : State), execAll construct s = hardwareReset c s) ∧
  ingest [] = [] ∧ (∀ s : State, execAll (ingest []) s = .next s) ∧
  (∀ (b : Byte) (x : List Byte), ingest (b :: x) = .upd b :: ingest x) ∧
  (∀ x y : List Byte, ingest (x ++ y) = ingest x ++ ingest y) ∧
  (∀ (x : List Byte) (s : State), ingestCount x = x.length ∧ ∃ t, execAll (ingest x) s = .next t) ∧
  Config.digestSize = 4 ∧ Config.blockSize = 1 ∧ (∀ n, asmCommands [.constant n] = []) ∧
  assembleLine "CONSTRUCT".toList = .ok [.command .rst] ∧
  assembleLine "DIGEST_SIZE".toList = .ok [.constant 4] ∧
  assembleLine "BLOCK_SIZE".toList = .ok [.constant 1] ∧
  assembleLine "EMITBE".toList = .ok [.emitBE] ∧
  assembleLine "INGEST 61 62".toList = .ok [.command (.upd 0x61#8), .command (.upd 0x62#8), .count 2] ∧
  assembleLine "CHECKSUM \"a\"".toList =
    .ok [.command .rst, .command (.upd 0x61#8), .count 1, .command .finz]

/-- Assembling what the disassembler prints of a word gives the command the word decodes to, for every one of the
1024 words, and a non-canonical word prints as the canonical word of its `op` (30_encoding.md R35, and R33, which
allows it). The disassembler is the model's choice (log entry 9). -/
def Obligations.AssemblingPrintedWordGivesCommand : Prop :=
  (∀ w : CommandWord, assembleLine (disassemble w) = .ok [.command (decode w)] ∧
    (asmCommands [.command (decode w)]).map encode = [encode (decode w)]) ∧
  (∀ (op : BitVec 2) (imm8 : Byte), op ≠ 0b01#2 →
    disassemble (joinFields op imm8) = disassemble (joinFields op 0#8))

/-- A decimal operand outside 0 to 255 is an assembly error, not a truncated operand; one inside is that octet
(30_encoding.md R35). The number is the base-10 fold over the digits' ASCII codes. That any number of digits may
stand is the model's choice (log entry 9). -/
def Obligations.DecimalOperandIsNeverTruncated : Prop :=
  ∀ ds : List Char, ds ≠ [] → (∀ c ∈ ds, c.isDigit = true) →
    let n := ds.foldl (fun a c => 10 * a + (c.toNat - 48)) 0
    (256 ≤ n → assembleLine ("UPD ".toList ++ ds) = .error .operandOutOfRange) ∧
    (n < 256 → assembleLine ("UPD ".toList ++ ds) = .ok [.command (.upd (BitVec.ofNat 8 n))])

/-- A hexadecimal operand above `0xFF` is an assembly error, not a truncated operand; one inside is that octet
(30_encoding.md R35). The number is the base-16 fold over the digits' ASCII codes: a decimal digit is its code less
48, a letter of either case its place in the alphabet plus 9. That any number of digits may stand, and letters of
either case, is the model's choice (log entry 9). -/
def Obligations.HexadecimalOperandIsNeverTruncated : Prop :=
  ∀ ds : List Char, ds ≠ [] → (∀ c ∈ ds, c ∈ "0123456789ABCDEFabcdef".toList) →
    let n := ds.foldl (fun a c => 16 * a + if c.isDigit then c.toNat - 48 else c.toNat % 32 + 9) 0
    (256 ≤ n → assembleLine ("UPD 0x".toList ++ ds) = .error .operandOutOfRange) ∧
    (n < 256 → assembleLine ("UPD 0x".toList ++ ds) = .ok [.command (.upd (BitVec.ofNat 8 n))])

/-- One ASCII character in single quotes stands for its code (30_encoding.md R35). That `;` and the single quote may
stand there, and that any other character is an error, is the model's choice (log entry 9). -/
def Obligations.CharacterOperandIsItsAsciiCode : Prop :=
  ∀ c : Char,
    (c.toNat < 128 → assembleLine ("UPD '".toList ++ [c, singleQuote]) =
      .ok [.command (.upd (BitVec.ofNat 8 c.toNat))]) ∧
    (128 ≤ c.toNat → assembleLine ("UPD '".toList ++ [c, singleQuote]) = .error .badOperand)
end

