-- ==== Sys2Proof/Laws/Assembler.lean ====
section
/-! SUPPORT. What the assembler's shared readers do, said once: a digit's value and its printing, and a list of digits
as a fold (30_encoding.md R35). -/

namespace Sys2Proof.Machine

/-- A printed digit reads as its value and stands in a word. -/
theorem digitValue_digitOf {n : Nat} (h : n < 16) :
    digitValue (digitOf n) = some n ∧ isWordChar (digitOf n) = true := by
  have all : ∀ k : Fin 16, digitValue (digitOf k) = some k.val ∧ isWordChar (digitOf k) = true := by decide
  exact all ⟨n, h⟩

/-- Digits whose values are below the base read as the fold of those values. -/
theorem readDigits_eq_foldl {base : Nat} {value : Char → Nat} {ds : List Char}
    (h : ∀ c ∈ ds, digitValue c = some (value c) ∧ value c < base) (a : Nat) :
    readDigits base a ds = some (ds.foldl (fun a c => base * a + value c) a) := by
  induction ds generalizing a with
  | nil => rfl
  | cons c cs ih =>
    obtain ⟨hv, hb⟩ := h c (by simp)
    simp only [readDigits, hv, hb, if_true, List.foldl_cons]
    exact ih (fun c hc => h c (by simp [hc])) _

/-- A text that is one word of digits is read as the number it is, with nothing left. -/
theorem readNumberWord_eq {ds : List Char} {n : Nat} (hw : ∀ c ∈ ds, isWordChar c = true)
    (hn : readNumber ds = some n) : readNumberWord ds = some (n, []) := by
  simp [readNumberWord, List.takeWhile_eq_self_iff.mpr hw, List.dropWhile_eq_nil_iff.mpr hw, hn]

/-- A text that does not begin with a single quote is read as a number. -/
theorem readImm_eq_readNumberWord {c : Char} {cs : List Char} (h : c ≠ singleQuote) :
    readImm (c :: cs) = readNumberWord (c :: cs) := by
  unfold readImm
  split
  · rename_i heq
    cases heq
    simp [h]
  · rfl

/-- What an `UPD` line with one blank and nothing after its operand assembles to. -/
theorem assembleLine_upd {c : Char} {cs : List Char} (h : isBlank c = false) :
    assembleLine ('U' :: 'P' :: 'D' :: ' ' :: c :: cs) = assembleUpd (c :: cs) := by
  have hskip : skipBlanks (' ' :: c :: cs) = c :: cs := by
    simp [skipBlanks, h, show isBlank ' ' = true from rfl]
  have hline : skipBlanks ('U' :: 'P' :: 'D' :: ' ' :: c :: cs) = 'U' :: 'P' :: 'D' :: ' ' :: c :: cs := rfl
  have hname : (('U' :: 'P' :: 'D' :: ' ' :: c :: cs).takeWhile isWordChar).map Char.toUpper = "UPD".toList := rfl
  have hrest : ('U' :: 'P' :: 'D' :: ' ' :: c :: cs).dropWhile isWordChar = ' ' :: c :: cs := rfl
  have hcomment : onlyComment ('U' :: 'P' :: 'D' :: ' ' :: c :: cs) = false := rfl
  simp only [assembleLine, hline, hname, hrest, hcomment, hskip]
  simp

/-- An `UPD` operand that is a number and nothing more: its octet if it is one, else the range error. -/
theorem assembleUpd_eq {cs : List Char} {n : Nat} (h : readImm cs = some (n, [])) :
    assembleUpd cs =
      if n < 256 then .ok [.command (.upd (BitVec.ofNat 8 n))] else .error .operandOutOfRange := by
  by_cases hn : n < 256 <;>
    simp [assembleUpd, h, operandInRange, hn, withoutOperand, show onlyComment [] = true from rfl]

end Sys2Proof.Machine
end

