-- ==== Sys2Proof/Laws/Decode.lean ====
section
/-! SUPPORT. The fields of a command word, and decoding by the `op` field (30_encoding.md R30, R31). -/

namespace Sys2Proof

theorem joinFields_getLsbD_nine (op : BitVec 2) (imm8 : Byte) : (joinFields op imm8).getLsbD 9 = op.getLsbD 1 := by
  show (op ++ imm8).getLsbD 9 = _
  rw [BitVec.getLsbD_append]
  rfl

theorem joinFields_getLsbD_eight (op : BitVec 2) (imm8 : Byte) :
    (joinFields op imm8).getLsbD 8 = op.getLsbD 0 := by
  show (op ++ imm8).getLsbD 8 = _
  rw [BitVec.getLsbD_append]
  rfl

theorem immField_joinFields (op : BitVec 2) (imm8 : Byte) : immField (joinFields op imm8) = imm8 := by
  show BitVec.extractLsb' 0 8 (op ++ imm8) = imm8
  ext i hi
  rw [BitVec.getElem_extractLsb', BitVec.getLsbD_append]
  simp [hi]

/-- Every word is its two fields joined (R30). -/
theorem joinFields_opField_immField (w : CommandWord) : joinFields (opField w) (immField w) = w := by
  show w.extractLsb' 8 2 ++ w.extractLsb' 0 8 = w
  apply BitVec.eq_of_getLsbD_eq
  intro i hi
  rw [BitVec.getLsbD_append, BitVec.getLsbD_extractLsb', BitVec.getLsbD_extractLsb']
  by_cases h : i < 8
  · simp [h]
  · simp only [h, if_false]
    rw [show 8 + (i - 8) = i by omega]
    simp
    omega

/-- What the decoder reads from two joined fields: the row of that `op` (R31). -/
theorem decode_joinFields (op : BitVec 2) (imm8 : Byte) :
    decode (joinFields op imm8) =
      match op.getLsbD 1, op.getLsbD 0 with
      | false, false => .rst
      | false, true => .upd imm8
      | true, false => .finz
      | true, true => .finb := by
  cases h1 : op.getLsbD 1 <;> cases h0 : op.getLsbD 0 <;>
    simp only [decode, joinFields_getLsbD_nine, joinFields_getLsbD_eight, immField_joinFields, h1, h0]

end Sys2Proof
end

