-- ==== Sys2Proof/Laws/State.lean ====
section
/-! SUPPORT. One lemma for each field of State and each update of it, and the fields of the reset state. -/

namespace Sys2Proof.Machine

variable (s : State)

@[simp] theorem State.withAcc_acc (v : Word32) : (s.withAcc v).acc = v := rfl
@[simp] theorem State.withAcc_ne (v : Word32) : (s.withAcc v).ne = s.ne := rfl
@[simp] theorem State.withAcc_presented (v : Word32) : (s.withAcc v).presented = s.presented := rfl
@[simp] theorem State.withAcc_responses (v : Word32) : (s.withAcc v).responses = s.responses := rfl

@[simp] theorem State.withNe_acc (v : Bool) : (s.withNe v).acc = s.acc := rfl
@[simp] theorem State.withNe_ne (v : Bool) : (s.withNe v).ne = v := rfl
@[simp] theorem State.withNe_presented (v : Bool) : (s.withNe v).presented = s.presented := rfl
@[simp] theorem State.withNe_responses (v : Bool) : (s.withNe v).responses = s.responses := rfl

@[simp] theorem State.respond_acc (d : Word32) : (s.respond d).acc = s.acc := rfl
@[simp] theorem State.respond_ne (d : Word32) : (s.respond d).ne = s.ne := rfl
@[simp] theorem State.respond_presented (d : Word32) : (s.respond d).presented = s.presented := rfl
@[simp] theorem State.respond_responses (d : Word32) : (s.respond d).responses = s.responses ++ [d] := rfl

@[simp] theorem State.toInitial_acc : s.toInitial.acc = 0#32 := rfl
@[simp] theorem State.toInitial_ne : s.toInitial.ne = false := rfl
@[simp] theorem State.toInitial_presented : s.toInitial.presented = s.presented := rfl
@[simp] theorem State.toInitial_responses : s.toInitial.responses = s.responses := rfl

@[simp] theorem State.present_acc (es : List PortEvent) : (s.present es).acc = s.acc := rfl
@[simp] theorem State.present_ne (es : List PortEvent) : (s.present es).ne = s.ne := rfl
@[simp] theorem State.present_presented (es : List PortEvent) :
    (s.present es).presented = s.presented ++ es := rfl
@[simp] theorem State.present_responses (es : List PortEvent) : (s.present es).responses = s.responses := rfl

@[simp] theorem State.presentFirst_acc (w : CommandWord) : (s.presentFirst w).acc = s.acc := rfl
@[simp] theorem State.presentFirst_ne (w : CommandWord) : (s.presentFirst w).ne = s.ne := rfl
@[simp] theorem State.presentFirst_presented (w : CommandWord) :
    (s.presentFirst w).presented = .command w :: s.presented := rfl
@[simp] theorem State.presentFirst_responses (w : CommandWord) :
    (s.presentFirst w).responses = s.responses := rfl

@[simp] theorem State.reset_acc : State.reset.acc = 0#32 := rfl
@[simp] theorem State.reset_ne : State.reset.ne = false := rfl
@[simp] theorem State.reset_presented : State.reset.presented = [] := rfl
@[simp] theorem State.reset_responses : State.reset.responses = [] := rfl

@[simp] theorem State.powerUp_presented (k : Nat) : (State.powerUp k).presented = [] := rfl
@[simp] theorem State.powerUp_responses (k : Nat) : (State.powerUp k).responses = [] := rfl

/-- The empty test reads `NE` and nothing else (41_finalize.md R52). -/
@[simp] theorem State.isEmpty_eq : s.isEmpty = !s.ne := rfl

end Sys2Proof.Machine
end

