-- ==== Sys2Proof/Laws/Ops.lean ====
section
/-! SUPPORT. What each shared operation does, said once: the two mixing functions as products and shifted
exclusive-ors, the remap, the addend, and the update as one step of the reference fold. -/

namespace Sys2Proof.Machine

/-- A left shift and an add are one multiplication modulo 2^32. -/
theorem add32_shl32_eq_mul (v : Word32) (k : Nat) : add32 v (shl32 v k) = v * BitVec.ofNat 32 (1 + 2 ^ k) := by
  apply BitVec.eq_of_toNat_eq
  simp [add32, shl32, Nat.shiftLeft_eq, Nat.mul_add]

/-- `Mix32` as a multiplication and one shifted exclusive-or (40_ingest.md R42). -/
theorem mix32_eq (v : Word32) : mix32 v = v * 1025#32 ^^^ (v * 1025#32) >>> 6 := by
  simp only [mix32, xor32, shr32, add32_shl32_eq_mul]
  rfl

/-- `Fin32` as two multiplications around one shifted exclusive-or (41_finalize.md R54). -/
theorem fin32_eq (v : Word32) :
    fin32 v = (v * 9#32 ^^^ (v * 9#32) >>> 11) * 32769#32 := by
  simp only [fin32, xor32, shr32, add32_shl32_eq_mul]
  rfl

/-- The remap leaves every value but 0, and never gives 0 (41_finalize.md R52). -/
theorem neverZero_ne_zero (w : Word32) : neverZero w ≠ 0#32 := by
  unfold neverZero
  split
  · decide
  · assumption

theorem neverZero_of_ne_zero {w : Word32} (h : w ≠ 0#32) : neverZero w = w := if_neg h

/-- The add step adds a number in 1 to 256 (30_encoding.md R32). -/
theorem addend_toNat (b : Byte) : (addend b).toNat = b.toNat + 1 := by
  have := b.isLt
  simp only [addend, zext32, BitVec.toNat_add, BitVec.toNat_setWidth, BitVec.toNat_ofNat]
  omega

/-- The word `FINZ` responds, by cases on `NE` (41_finalize.md R52). -/
theorem State.finzDigest_eq (s : State) :
    s.finzDigest = if s.ne then neverZeroDigest s.acc else 0#32 := by
  cases h : s.ne <;> simp [State.finzDigest, h]

/-- `Acc` of a nonempty sequence starts with one update (40_ingest.md R45). -/
theorem accAfter_cons (a : Word32) (b : Byte) (x : List Byte) :
    accAfter a (b :: x) = accAfter (ingestByte a b) x := rfl

end Sys2Proof.Machine
end

