-- ==== Sys2Proof/Laws/PerInstr.lean ====
section
/-! SUPPORT. Families of statements about the commands as they are written, one lemma for each command. -/

/-! ## CanonicalWord: a command is well formed and its word is the canonical word of its row (30_encoding.md R31). -/

namespace Sys2Proof.Laws.CanonicalWord

/-- The row's canonical word, and the command's well-formedness. -/
def Statement (i : Instr) : Prop :=
  i.wellFormed = true ∧
  (encode i).toNat =
    match i with
    | .rst => 0x000
    | .upd b => 0x100 + b.toNat
    | .finz => 0x200
    | .finb => 0x300

theorem rst : Statement .rst := ⟨rfl, rfl⟩

theorem upd (b : Byte) : Statement (.upd b) := by
  have := b.isLt
  refine ⟨by simpa [Instr.wellFormed, operandInRange] using this, ?_⟩
  simp only [encode, joinFields, BitVec.toNat_append, BitVec.toNat_ofNat, Nat.shiftLeft_eq]
  rw [← Nat.shiftLeft_eq, ← Nat.shiftLeft_add_eq_or_of_lt this, Nat.shiftLeft_eq]

theorem finz : Statement .finz := ⟨rfl, rfl⟩

theorem finb : Statement .finb := ⟨rfl, rfl⟩

end Sys2Proof.Laws.CanonicalWord
end

