-- ==== Sys2Proof/Laws/Step.lean ====
section
/-! SUPPORT. Everything a command, a taken event and a step can do, said once (42_control_and_sequences.md R66). -/

namespace Sys2Proof.Machine

/-- What a command can do: one case for each, with the whole next state. -/
theorem exec_cases {i : Instr} {s t : State} (h : exec i s = .next t) :
    (i = .rst ∧ t = s.toInitial) ∨
    (∃ b, i = .upd b ∧ t = (s.withAcc (ingestByte s.acc b)).withNe true) ∨
    (i = .finz ∧ t = s.respond s.finzDigest) ∨
    (i = .finb ∧ t = s.respond (fin32 s.acc)) := by
  cases i with
  | rst => cases h; exact .inl ⟨rfl, rfl⟩
  | upd b => cases h; exact .inr (.inl ⟨b, rfl, rfl⟩)
  | finz => cases h; exact .inr (.inr (.inl ⟨rfl, rfl⟩))
  | finb => cases h; exact .inr (.inr (.inr ⟨rfl, rfl⟩))

/-- What taking an event can do. -/
theorem takeEvent_cases (s : State) :
    (s.presented = [] ∧ s.takeEvent = none) ∨
    (∃ e rest, s.presented = e :: rest ∧ s.takeEvent = some (e, { s with presented := rest })) := by
  unfold State.takeEvent
  cases h : s.presented with
  | nil => exact .inl ⟨rfl, rfl⟩
  | cons e rest => exact .inr ⟨e, rest, rfl, rfl⟩

/-- What a step can do: hold, reset, or execute the decoded command. -/
theorem step_cases {s t : State} (h : step s = .next t) :
    (s.presented = [] ∧ t = s) ∨
    (∃ c rest, s.presented = .reset c :: rest ∧ t = ({ s with presented := rest } : State).toInitial) ∨
    (∃ w rest, s.presented = .command w :: rest ∧
      exec (decode w) { s with presented := rest } = .next t) := by
  obtain ⟨hp, he⟩ | ⟨e, rest, hp, he⟩ := takeEvent_cases s
  · simp only [step, he] at h
    cases h
    exact .inl ⟨hp, rfl⟩
  · cases e with
    | reset c =>
      simp only [step, he, hardwareReset] at h
      cases h
      exact .inr (.inl ⟨c, rest, hp, rfl⟩)
    | command w =>
      simp only [step, he] at h
      exact .inr (.inr ⟨w, rest, hp, h⟩)

/-- A run of the machine takes its first step and then the rest. -/
theorem run_succ {k : Nat} {s t : State} (h : step s = .next t) :
    Sys2Proof.core.run (k + 1) s = Sys2Proof.core.run k t := by
  have h' : Sys2Proof.core.step s = .next t := h
  simp only [Host.Core.run, h']

/-- A sequence is executed command by command. -/
theorem execAll_cons {i : Instr} {is : List Instr} {s t : State} (h : exec i s = .next t) :
    execAll (i :: is) s = execAll is t := by
  simp [execAll, h]

/-- A sequence in two parts is executed part by part. -/
theorem execAll_append {is js : List Instr} {s t : State} (h : execAll is s = .next t) :
    execAll (is ++ js) s = execAll js t := by
  induction is generalizing s with
  | nil => cases h; rfl
  | cons i is ih =>
    simp only [List.cons_append, execAll] at h ⊢
    split at h
    · exact ih h
    · cases h
    · cases h

end Sys2Proof.Machine
end

