-- ==== Sys2Proof/Tests/Slice0.lean ====
section
/-! SUPPORT. The model's own tests: well-formedness, decoding of words written out from the encoding table, one
step of each command on a small state (expected values from 95_test_vectors.md), and for each statement with
hypotheses a state and operands that meet them together. -/

namespace Sys2Proof.Tests

open Sys2Proof Sys2Proof.Machine

/-- A state with the given engine, whose host presents `p`. -/
def engine (acc : Word32) (ne : Bool) (p : List PortEvent := []) : State := ⟨acc, ne, p, []⟩

/-! ## Well-formedness: an ill-formed number for each check -/

theorem test_operand_256_refused : operandInRange 256 = false := by decide
theorem test_operand_255_accepted : operandInRange 255 = true := by decide
theorem test_word_1024_refused : commandWordInRange 1024 = false := by decide
theorem test_word_1024_not_decoded : decodeNumber 1024 = .error .widerThanCommandWord := by decide
theorem test_table_word_1024_refused : decodeTableWord 16 1024 = none := by decide
theorem test_all_ones_word_accepted : decodeTableWord 10 0x3FF = some .finb := by decide

/-! ## Decoding: words written out bit by bit (30_encoding.md R31; 95_test_vectors.md V-C1 to V-C10) -/

theorem test_decode_rst : decode 0b0000000000#10 = .rst := by decide
theorem test_decode_rst_ignored_bits : decode 0b0010101011#10 = .rst := by decide
theorem test_decode_upd : decode 0b0101100001#10 = .upd 0x61#8 := by decide
theorem test_decode_upd_all_ones : decode 0b0111111111#10 = .upd 0xFF#8 := by decide
theorem test_decode_finz : decode 0b1000000000#10 = .finz := by decide
theorem test_decode_finz_ignored_bits : decode 0b1001010101#10 = .finz := by decide
theorem test_decode_finb : decode 0b1100000000#10 = .finb := by decide
theorem test_encode_canonical :
    [encode .rst, encode (.upd 0x61#8), encode .finz, encode .finb] = [0x000#10, 0x161#10, 0x200#10, 0x300#10] := by
  decide

/-! ## One step of each command -/

/-- V-U3, through the port. -/
theorem test_step_upd : step ((engine 0x00000000#32 false).withFetchWord 10 0x161) =
    .next (engine 0x00018E43#32 true) := rfl

/-- V-U8: the add wraps past 0. -/
theorem test_upd_wraps : exec (.upd 0xFF#8) (engine 0xFFFFFFFF#32 true) = .next (engine 0x0003F30C#32 true) := rfl

/-- V-Q4, NZ's reference digest of "a". -/
theorem test_finz_reference : exec .finz (engine 0x00018E43#32 true) =
    .next { engine 0x00018E43#32 true with responses := [0xC31517C4#32] } := rfl

/-- V-Q2 and V-Q5: the remap, and the test on `NE`. -/
theorem test_finz_tests_ne :
    (engine 0x00000000#32 true).finzDigest = 0x00048009#32 ∧ (engine 0x00018E43#32 false).finzDigest = 0x00000000#32 := by
  decide

/-- V-Q9. -/
theorem test_finb : exec .finb (engine 0x20002020#32 true) =
    .next { engine 0x20002020#32 true with responses := [0xB0872104#32] } := rfl

/-- V-R3, with a non-canonical word. -/
theorem test_step_rst : step (engine 0x00000000#32 true [.command 0x0AB#10]) = .next (engine 0x00000000#32 false) :=
  rfl

/-- R73: a `FINZ` presented with hardware reset gets no response. -/
theorem test_reset_wins : step (engine 0x9B1AABFA#32 true [.reset (some 0x200#10)]) =
    .next (engine 0x00000000#32 false) := rfl

/-- R85: with nothing presented the reset state holds. -/
theorem test_idle : step State.reset = .next State.reset := rfl

/-! ## The assembler (30_encoding.md R35, R36) -/

theorem test_assemble_forms : assemble "  upd 0x61 ; a byte\nUPD 98\nUpd 'c'\n\nfinz".toList =
    .ok [.command (.upd 0x61#8), .command (.upd 0x62#8), .command (.upd 0x63#8), .command .finz] := by decide

theorem test_assemble_checksum : assembleLine "CHECKSUM \"ab\" ; P1".toList =
    .ok [.command .rst, .command (.upd 0x61#8), .command (.upd 0x62#8), .count 2, .command .finz] := by decide

theorem test_assemble_out_of_range : assembleLine "UPD 256".toList = .error .operandOutOfRange := by decide

/-- The model's choice (log entry 9): a quoted `;` is a character, and no blank need stand before a quote. -/
theorem test_assemble_quoted_semicolon : assembleLine "UPD';' ; comment".toList = .ok [.command (.upd 0x3B#8)] := by
  decide

theorem test_assemble_trailing_text : assembleLine "RST 1".toList = .error .trailingText := by decide

theorem test_assemble_byte_list : assembleLine "INGEST 1A 55 81 b5".toList =
    .ok [.command (.upd 0x1A#8), .command (.upd 0x55#8), .command (.upd 0x81#8), .command (.upd 0xB5#8), .count 4] := by
  decide

/-- V-E1. -/
theorem test_digest_bytes : digestBytes 0xC31517C4#32 = [0xC3#8, 0x15#8, 0x17#8, 0xC4#8] := by decide

/-! ## Witnesses: a state and operands that meet each statement's hypotheses together -/

theorem witness_PrimitivesAreArithmeticModulo : (31 : Nat) ≤ 31 ∧ (31 : Nat) < 32 ∧ (0 : Nat) ≤ 31 ∧ (0 : Nat) < 32 := by
  decide

theorem witness_MixIsAddThenXorOfTheSum :
    (engine 0x00018E43#32 true).ne = true ∧ mix32 (engine 0x00018E43#32 true).acc ≠ 0#32 := by decide

theorem witness_UpdAddsByteAndMixes :
    (engine 0xFFFFFFFE#32 false).acc = 0xFFFFFFFE#32 ∧ (engine 0x00000000#32 true).acc = 0x00000000#32 ∧
      (engine 0xFFFFFFFF#32 true).acc = 0xFFFFFFFF#32 := by decide

/-- Each hypothesis of the `RST` statement: the reset state; `NE` cleared by the command, by a presented word and
by hardware reset; the worked example's state. -/
theorem witness_RstReturnsToInitialState :
    ((engine 0#32 false).acc = 0#32 ∧ (engine 0#32 false).ne = false) ∧
    (exec .rst (engine 5#32 true) = .next (engine 0#32 false) ∧ (engine 5#32 true).ne = true ∧
      (engine 0#32 false).ne = false) ∧
    step (engine 5#32 true [.command 0x000#10]) = .next (engine 0#32 false) ∧
    step (engine 5#32 true [.reset none]) = .next (engine 0#32 false) ∧
    (engine 0x9B1AABFA#32 true).acc = 0x9B1AABFA#32 ∧ (engine 0x9B1AABFA#32 true).ne = true :=
  ⟨⟨rfl, rfl⟩, ⟨rfl, rfl, rfl⟩, rfl, rfl, rfl, rfl⟩

theorem witness_FinbRespondsBasePostprocess :
    exec .finb (engine 0#32 true) = .next { engine 0#32 true with responses := [0x00000000#32] } ∧
    (engine 0#32 true).acc = 0#32 ∧ (engine 0x00018E43#32 true).acc = 0x00018E43#32 := ⟨rfl, rfl, rfl⟩

/-- A state of each row. -/
theorem witness_FinzRespondsNeverZeroDigest :
    ((engine 0#32 false).acc = 0#32 ∧ (engine 0#32 false).ne = false) ∧
    ((engine 0#32 true).acc = 0#32 ∧ (engine 0#32 true).ne = true) ∧
    ((engine 0xC00FFC01#32 true).acc = 0xC00FFC01#32 ∧ (engine 0xC00FFC01#32 true).ne = true) ∧
    ((engine 0x00018E43#32 true).acc = 0x00018E43#32 ∧ (engine 0x00018E43#32 true).ne = true) := by decide

/-- Both sides of the comparison of the two tests, `ACC = 0` and `ACC ≠ 0`, and the state where they differ. -/
theorem witness_TestOnAccAgreesUnderInvariant :
    ((engine 0#32 false).EmptyMeansZero ∧ ¬((engine 0#32 false).acc = 0#32 ∧ (engine 0#32 false).ne = true)) ∧
    ((engine 1#32 true).EmptyMeansZero ∧ ¬((engine 1#32 true).acc = 0#32 ∧ (engine 1#32 true).ne = true)) ∧
    (engine 0#32 true).acc = 0#32 ∧ (engine 0#32 true).ne = true :=
  ⟨⟨fun _ => rfl, by decide⟩, ⟨fun h => absurd h (by decide), by decide⟩, rfl, rfl⟩

/-- Two states that agree on `ACC` and differ in `NE`, each command run in both. -/
theorem witness_AccessTableIsComplete :
    (engine 7#32 true).acc = (engine 7#32 false).acc ∧ (engine 7#32 true).ne ≠ (engine 7#32 false).ne ∧
    exec .rst (engine 7#32 true) = .next (engine 0#32 false) ∧
    (∃ t t', exec (.upd 1#8) (engine 7#32 true) = .next t ∧ exec (.upd 1#8) (engine 7#32 false) = .next t') ∧
    (∃ t t', exec .finb (engine 7#32 true) = .next t ∧ exec .finb (engine 7#32 false) = .next t') ∧
    (∃ t t', exec .finz (engine 7#32 true) = .next t ∧
      exec .finz { engine 7#32 true with presented := [.reset none] } = .next t') :=
  ⟨rfl, by decide, rfl, ⟨_, _, rfl, rfl⟩, ⟨_, _, rfl, rfl⟩, ⟨_, _, rfl, rfl⟩⟩

theorem witness_CommandsLeaveTheRestUnchanged :
    (∃ t, exec .rst (engine 7#32 true) = .next t) ∧ (∃ t, exec (.upd 0#8) (engine 7#32 true) = .next t) ∧
    (∃ t, exec .finz (engine 7#32 true) = .next t) ∧ (∃ t, exec .finb (engine 7#32 true) = .next t) :=
  ⟨⟨_, rfl⟩, ⟨_, rfl⟩, ⟨_, rfl⟩, ⟨_, rfl⟩⟩

theorem witness_DecodeInvertsEncode :
    Instr.rst.wellFormed = true ∧ (Instr.upd 0x00#8).wellFormed = true ∧ (Instr.upd 0xFF#8).wellFormed = true ∧
      encode .finz = encode .finz := by decide

theorem witness_EveryWordBelongsToOneRow :
    opField 0x0FF#10 = 0b00#2 ∧ opField 0x100#10 = 0b01#2 ∧ opField 0x1FF#10 = 0b01#2 ∧ opField 0x200#10 = 0b10#2 ∧
      opField 0x3FF#10 = 0b11#2 := by decide

theorem witness_ImmediateIsIgnoredOutsideUpd :
    (0b00#2 : BitVec 2) ≠ 0b01#2 ∧ (0b10#2 : BitVec 2) ≠ 0b01#2 ∧ (0b11#2 : BitVec 2) ≠ 0b01#2 ∧
      (engine 7#32 true).presented = [] := by decide

theorem witness_StepRunsDecodedCommand :
    (engine 7#32 true [.command 0x1FF#10, .reset none]).presented = .command 0x1FF#10 :: [.reset none] := rfl

theorem witness_FetchWordRunsNext :
    decodeTableWord 10 0 = some .rst ∧ decodeTableWord 16 0x3FF = some .finb ∧
      decodeTableWord 10 0x161 = some (.upd 0x61#8) := by decide

theorem witness_HardwareResetWins :
    (engine 7#32 true [.reset (some 0x200#10), .reset none]).presented = .reset (some 0x200#10) :: [.reset none] := rfl

theorem witness_HardwareResetEqualsRst :
    hardwareReset (some 0x200#10) (engine 7#32 true) = .next (engine 0#32 false) ∧
    (engine 7#32 true [.reset none]).presented = .reset none :: [] := ⟨rfl, rfl⟩

theorem witness_ResetLeavesZeroAndEmpty :
    (engine 0x00000000#32 false).acc = 0x00000000#32 ∧ (engine 0x00000000#32 false).ne = false := by decide

/-- The invariant and a step in each of its three cases. -/
theorem witness_EveryStepKeepsEmptyMeansZero :
    ((engine 0#32 false).EmptyMeansZero ∧ step (engine 0#32 false) = .next (engine 0#32 false)) ∧
    ((engine 7#32 true [.reset none]).EmptyMeansZero ∧
      step (engine 7#32 true [.reset none]) = .next (engine 0#32 false)) ∧
    ((engine 0#32 false [.command 0x161#10]).EmptyMeansZero ∧
      step (engine 0#32 false [.command 0x161#10]) = .next (engine 0x00018E43#32 true)) :=
  ⟨⟨fun _ => rfl, rfl⟩, ⟨fun h => absurd h (by decide), rfl⟩, ⟨fun _ => rfl, rfl⟩⟩

theorem witness_ReachableEmptyMeansZero : Reachable State.reset ∧ State.reset.ne = false :=
  ⟨Reachable.reset [] [], rfl⟩

/-- The two ends of the range from which an octet leads to 0, and `ACC = 0`. -/
theorem witness_UpdSeparatesBytes :
    exec (.upd 0x00#8) (engine 0xFFFFFFFF#32 true) = .next (engine 0#32 true) ∧
    exec (.upd 0xFF#8) (engine 0xFFFFFF00#32 true) = .next (engine 0#32 true) ∧
    exec (.upd 0x00#8) (engine 0#32 false) = .next (engine 0x00000411#32 true) ∧
    (0xFFFFFF00 : Nat) ≤ (engine 0xFFFFFF00#32 true).acc.toNat := ⟨rfl, rfl, rfl, by decide⟩

theorem witness_UpdCanRepeatOrReachZero :
    (engine 0x20002020#32 true).acc = 0x20002020#32 ∧ (engine 0x64406553#32 true).acc = 0x64406553#32 ∧
      (engine 0xC33F3F20#32 true).acc = 0xC33F3F20#32 := by decide

/-- Two states that agree on `(ACC, NE)` and differ in what is presented. -/
theorem witness_FinalizeIsPureAndDeletable :
    (engine 7#32 true).acc = (engine 7#32 true [.reset none]).acc ∧
    (engine 7#32 true).ne = (engine 7#32 true [.reset none]).ne ∧
    engine 7#32 true ≠ engine 7#32 true [.reset none] := by decide

theorem witness_NonemptyInputNeverDigestsToZero :
    (engine 0#32 true).ne = true ∧ (engine 0#32 false).ne = false := by decide

/-- A zero accumulator from the empty and from a nonempty sequence. -/
theorem witness_BaseDigestIsZeroOnlyAtZero :
    exec .finb (engine 0#32 true) = .next { engine 0#32 true with responses := [0#32] } ∧
    accAfter 0#32 [] = 0#32 ∧ accAfter 0#32 [0x1A#8, 0x55#8, 0x81#8, 0xB5#8] = 0#32 :=
  ⟨rfl, rfl, by decide⟩

theorem witness_RemapMakesExactlyOneCollision :
    (engine 0#32 true).ne = true ∧ (0xC31517C4#32 : Word32) ≠ 0#32 ∧ (0xC31517C4#32 : Word32) ≠ 0x00048009#32 := by
  decide

theorem witness_ChecksumIsTheDigestFunction : ([0x61#8] : List Byte) ≠ [] := by decide

theorem witness_RunsRefineSpecStep :
    (engine 7#32 true (commandEvents [.upd 0x61#8, .finz] ++ [.reset none])).presented =
      commandEvents [.upd 0x61#8, .finz] ++ [.reset none] := rfl

theorem witness_FinalizeReportsBytesSinceReset :
    (engine 7#32 true [.reset none, .command 0x161#10, .command 0x200#10, .reset none]).presented =
      .reset none :: ([.command 0x161#10, .command 0x200#10] ++ [.reset none]) := rfl

/-- Two engines in the same state, given the same sequence and an interleaved schedule with an idle third engine; and
a message from reset. -/
theorem witness_SequenceLawsHold :
    (let s := engine 0#32 false (commandEvents [.upd 0x61#8, .finz])
     [s, engine 7#32 true, s][0]? = some s ∧ [s, engine 7#32 true, s][2]? = some s ∧
       s.presented = commandEvents [.upd 0x61#8, .finz] ∧
       [0, 2, 1, 2, 0].count 0 = [Instr.upd 0x61#8, .finz].length ∧
       [0, 2, 1, 2, 0].count 2 = [Instr.upd 0x61#8, .finz].length) ∧
    execAll (.rst :: ingest [0x61#8]) (engine 7#32 true) = .next (engine 0x00018E43#32 true) :=
  ⟨⟨rfl, rfl, rfl, rfl, rfl⟩, rfl⟩

theorem witness_EnginesShareNothing :
    (1 : Nat) ≠ 0 ∧ [engine 0#32 false, engine 7#32 true][0]? = some (engine 0#32 false) := by decide

theorem witness_ResponsesAreImmediateAndStay :
    ∃ t, execAll [.finz, .upd 0x61#8] (engine 7#32 true) = .next t := ⟨_, rfl⟩

theorem witness_DigestBytesAreBigEndian :
    (∃ t, exec .finb (engine 7#32 true) = .next t) ∧ (∃ t, exec .finz (engine 7#32 false) = .next t) ∧
      digestBytes 7#32 = digestBytes 7#32 := ⟨⟨_, rfl⟩, ⟨_, rfl⟩, rfl⟩

theorem witness_AssemblingPrintedWordGivesCommand : (0b10#2 : BitVec 2) ≠ 0b01#2 := by decide

/-- The two values where the clauses meet, 255 and 256. -/
theorem witness_DecimalOperandIsNeverTruncated :
    let value := fun ds : List Char => ds.foldl (fun a c => 10 * a + (c.toNat - 48)) 0
    (['2', '5', '5'].all Char.isDigit = true ∧ value ['2', '5', '5'] < 256) ∧
    (['2', '5', '6'].all Char.isDigit = true ∧ 256 ≤ value ['2', '5', '6']) := by decide

/-- The two values where the clauses meet, 0xFF and 0x100. -/
theorem witness_HexadecimalOperandIsNeverTruncated :
    let digits := "0123456789ABCDEFabcdef".toList
    let value := fun ds : List Char =>
      ds.foldl (fun a c => 16 * a + if c.isDigit then c.toNat - 48 else c.toNat % 32 + 9) 0
    ('F' ∈ digits ∧ 'f' ∈ digits ∧ value ['F', 'f'] = 255) ∧
    ('1' ∈ digits ∧ '0' ∈ digits ∧ value ['1', '0', '0'] = 256) := by
  refine ⟨⟨?_, ?_, ?_⟩, ?_, ?_, ?_⟩ <;> decide

/-- The two ends of the ASCII range, and the character that elsewhere starts a comment. -/
theorem witness_CharacterOperandIsItsAsciiCode :
    ';'.toNat < 128 ∧ (Char.ofNat 127).toNat < 128 ∧ 128 ≤ (Char.ofNat 128).toNat := by decide

/-- A held message, with an event to take and with nothing presented. -/
theorem witness_EveryStepAdvancesTheHeldMessage :
    ((engine 0x00018E43#32 true [.command 0x162#10]).Holds [0x61#8] ∧
      step (engine 0x00018E43#32 true [.command 0x162#10]) = .next (engine 0x0624D63C#32 true)) ∧
    ((engine 0#32 false).Holds [] ∧ step (engine 0#32 false) = .next (engine 0#32 false)) :=
  ⟨⟨⟨rfl, rfl⟩, rfl⟩, ⟨rfl, rfl⟩, rfl⟩

end Sys2Proof.Tests
end

section
/-! PROOFS. The equations of `exec`, hardware reset and `step`: one for each command and for each thing the host can
present. -/

namespace Sys2Proof.Machine

@[simp] theorem exec_rst (s : State) : exec .rst s = .next s.toInitial := rfl

@[simp] theorem exec_upd (b : Byte) (s : State) :
    exec (.upd b) s = .next ((s.withAcc (ingestByte s.acc b)).withNe true) := rfl

@[simp] theorem exec_finz (s : State) : exec .finz s = .next (s.respond s.finzDigest) := rfl

@[simp] theorem exec_finb (s : State) : exec .finb s = .next (s.respond (fin32 s.acc)) := rfl

@[simp] theorem hardwareReset_eq (c : Option CommandWord) (s : State) : hardwareReset c s = .next s.toInitial := rfl

theorem exec_eq_next (i : Instr) (s : State) : ∃ t, exec i s = .next t := by
  cases i with
  | rst => exact ⟨_, exec_rst s⟩
  | upd b => exact ⟨_, exec_upd b s⟩
  | finz => exact ⟨_, exec_finz s⟩
  | finb => exact ⟨_, exec_finb s⟩

theorem step_of_presented_nil {s : State} (h : s.presented = []) : step s = .next s := by
  simp [step, State.takeEvent, h]

theorem step_of_presented_reset {s : State} {c : Option CommandWord} {rest : List PortEvent}
    (h : s.presented = .reset c :: rest) : step s = hardwareReset c { s with presented := rest } := by
  simp [step, State.takeEvent, h]

theorem step_of_presented_command {s : State} {w : CommandWord} {rest : List PortEvent}
    (h : s.presented = .command w :: rest) : step s = exec (decode w) { s with presented := rest } := by
  simp [step, State.takeEvent, h]

/-- Every step goes on, in every state (60_exceptions.md R70). -/
theorem State.goesOn (s : State) : s.GoesOn := by
  unfold State.GoesOn
  match h : s.presented with
  | [] => exact ⟨_, step_of_presented_nil h⟩
  | .reset _ :: _ => exact ⟨_, step_of_presented_reset h⟩
  | .command _ :: _ =>
    rw [step_of_presented_command h]
    exact exec_eq_next _ _

end Sys2Proof.Machine
end

section
/-! PROOFS. What the finalize commands read, and what they respond in the reset state (10_state.md R18, R19). -/

namespace Sys2Proof.Machine

/-- The word `FINZ` responds is a function of `(ACC, NE)`. -/
theorem State.finzDigest_congr {s s' : State} (hacc : s.acc = s'.acc) (hne : s.ne = s'.ne) :
    s.finzDigest = s'.finzDigest := by
  rw [finzDigest_eq, finzDigest_eq, hacc, hne]

@[simp] theorem fin32_zero : fin32 0#32 = 0#32 := by decide

theorem exec_finz_of_ne_false {s : State} (h : s.ne = false) : exec .finz s = .next (s.respond 0#32) := by
  simp [State.finzDigest_eq, h]

theorem exec_finb_of_acc_zero {s : State} (h : s.acc = 0#32) : exec .finb s = .next (s.respond 0#32) := by
  simp [h]

end Sys2Proof.Machine
end

section
/-! PROOFS. The invariant of 10_state.md R12: every command and every step keeps it, so every reachable state has
it. -/

namespace Sys2Proof.Machine

theorem State.emptyMeansZero_of_acc {s : State} (h : s.acc = 0#32) : s.EmptyMeansZero := fun _ => h

theorem State.emptyMeansZero_of_ne {s : State} (h : s.ne = true) : s.EmptyMeansZero :=
  fun h' => absurd (h.symm.trans h') (by decide)

/-- A response changes neither `ACC` nor `NE`, so the invariant holds after it exactly if it held before. -/
theorem State.respond_emptyMeansZero_iff {s : State} {d : Word32} :
    (s.respond d).EmptyMeansZero ↔ s.EmptyMeansZero := Iff.rfl

theorem exec_keeps_emptyMeansZero {i : Instr} {s t : State} (hs : s.EmptyMeansZero) (h : exec i s = .next t) :
    t.EmptyMeansZero := by
  obtain ⟨-, rfl⟩ | ⟨b, -, rfl⟩ | ⟨-, rfl⟩ | ⟨-, rfl⟩ := exec_cases h
  · exact State.emptyMeansZero_of_acc s.toInitial_acc
  · exact State.emptyMeansZero_of_ne (State.withNe_ne _ true)
  · exact State.respond_emptyMeansZero_iff.mpr hs
  · exact State.respond_emptyMeansZero_iff.mpr hs

theorem step_keeps_emptyMeansZero {s t : State} (hs : s.EmptyMeansZero) (h : step s = .next t) :
    t.EmptyMeansZero := by
  obtain ⟨-, rfl⟩ | ⟨c, rest, -, rfl⟩ | ⟨w, rest, -, hexec⟩ := step_cases h
  · exact hs
  · exact State.emptyMeansZero_of_acc (State.toInitial_acc _)
  · exact exec_keeps_emptyMeansZero (s := { s with presented := rest }) hs hexec

theorem Reachable.emptyMeansZero {s : State} (h : Reachable s) : s.EmptyMeansZero := by
  induction h with
  | reset p r => exact State.emptyMeansZero_of_acc State.reset_acc
  | step _ hstep ih => exact step_keeps_emptyMeansZero ih hstep
  | present es _ ih => exact ih

/-- Whatever a run of any length leads to from a reachable state is reachable. -/
theorem Reachable.run {k : Nat} {s t : State} (hs : Reachable s) (h : Sys2Proof.core.run k s = .next t) :
    Reachable t := by
  induction k generalizing s with
  | zero =>
    cases h
    exact hs
  | succ k ih =>
    obtain ⟨u, hu⟩ := s.goesOn
    rw [run_succ hu] at h
    exact ih (hs.step hu) h

/-- Four octets that bring the accumulator back to 0 from reset (40_ingest.md R44). -/
def bytesBackToZero : List Byte := [0x1A#8, 0x55#8, 0x81#8, 0xB5#8]

theorem run_bytesBackToZero :
    Sys2Proof.core.run 4 { State.reset with presented := commandEvents (ingest bytesBackToZero) } =
      .next (⟨0#32, true, [], []⟩ : State) := rfl

/-- A state before the first reset that the invariant does not hold of: `NE = 0` with `ACC = 1`, and `FINB`
presented (10_state.md R12; 70_reset_and_hazards.md R81). -/
def stateOutsideInvariant : State := ⟨1#32, false, [.command (encode .finb)], []⟩

theorem not_emptyMeansZero_stateOutsideInvariant : ¬stateOutsideInvariant.EmptyMeansZero :=
  fun h => absurd (h rfl) (by decide)

theorem step_stateOutsideInvariant :
    step stateOutsideInvariant =
      .next (({ stateOutsideInvariant with presented := [] } : State).respond (fin32 1#32)) :=
  (step_of_presented_command (s := stateOutsideInvariant) rfl).trans (exec_finb _)

end Sys2Proof.Machine
end

section
/-! PROOFS. The statements of 10_state.md: the access table (R18), what reset leaves (R19), the invariant (R12). -/

namespace Sys2Proof.Machine

/-- Settles O11: each row is read off the command's equation; what a command does not read, its equation does not
mention. -/
theorem accessTableIsComplete : Obligations.AccessTableIsComplete := by
  unfold Obligations.AccessTableIsComplete
  refine ⟨?every, ?rst, ?reset, ?upd, ?finz, ?finb⟩
  case every => intro i; cases i <;> simp
  case rst =>
    intro s t h
    rw [exec_rst] at h
    cases h
    exact ⟨s.toInitial_acc, s.toInitial_ne, s.toInitial_responses⟩
  case reset =>
    exact fun c s => ⟨_, hardwareReset_eq c s, s.toInitial_acc, s.toInitial_ne, s.toInitial_responses⟩
  case upd =>
    intro b s t s' t' h h'
    rw [exec_upd] at h h'
    cases h
    cases h'
    exact ⟨rfl, rfl, congrArg (ingestByte · b)⟩
  case finz =>
    intro s t s' t' h h'
    rw [exec_finz] at h h'
    cases h
    cases h'
    refine ⟨rfl, rfl, s.finzDigest, rfl, fun hacc hne => ?_⟩
    rw [State.respond_responses, State.finzDigest_congr hacc hne]
  case finb =>
    intro s t s' t' h h'
    rw [exec_finb] at h h'
    cases h
    cases h'
    refine ⟨rfl, rfl, fin32 s.acc, rfl, fun hacc => ?_⟩
    rw [State.respond_responses, hacc]

/-- Settles O26: the invariant by induction on reachability; its converse fails after the four octets of
40_ingest.md R44; and `FINB` keeps a state without the invariant outside it. -/
theorem reachableEmptyMeansZero : Obligations.ReachableEmptyMeansZero := by
  unfold Obligations.ReachableEmptyMeansZero
  refine ⟨fun s h => h.emptyMeansZero, ?converse, ?outside⟩
  case converse => exact ⟨_, (Reachable.reset _ _).run run_bytesBackToZero, rfl, rfl⟩
  case outside =>
    exact ⟨_, _, not_emptyMeansZero_stateOutsideInvariant, rfl, step_stateOutsideInvariant,
      mt State.respond_emptyMeansZero_iff.mp not_emptyMeansZero_stateOutsideInvariant⟩

/-- Settles O21: the fields of the initial state, and the two finalize commands evaluated there. -/
theorem resetLeavesZeroAndEmpty : Obligations.ResetLeavesZeroAndEmpty := by
  unfold Obligations.ResetLeavesZeroAndEmpty
  refine ⟨State.reset_acc, State.reset_ne, ?rst, ?reset, ?finalize, fun k => ⟨rfl, rfl⟩⟩
  case rst => exact fun s => ⟨_, exec_rst s, s.toInitial_acc, s.toInitial_ne⟩
  case reset => exact fun c s => ⟨_, hardwareReset_eq c s, s.toInitial_acc, s.toInitial_ne⟩
  case finalize =>
    intro s hacc hne
    exact ⟨exec_finz_of_ne_false hne, exec_finb_of_acc_zero hacc⟩

end Sys2Proof.Machine
end

section
/-! PROOFS. The message an engine holds (20_memory.md R27, 10_state.md R11): what each command and each taken event does
to it, and what a run over any list of events does. -/

namespace Sys2Proof.Machine

/-- `Acc` of a sequence ends with one update (40_ingest.md R45). -/
theorem accAfter_concat (a : Word32) (x : List Byte) (b : Byte) :
    accAfter a (x ++ [b]) = ingestByte (accAfter a x) b :=
  List.foldl_append

theorem State.toInitial_holds_nil (s : State) : s.toInitial.Holds [] := ⟨rfl, rfl⟩

/-- A response changes neither `ACC` nor `NE`, so the message held stays. -/
theorem State.respond_holds_iff {s : State} {d : Word32} {m : List Byte} : (s.respond d).Holds m ↔ s.Holds m := Iff.rfl

theorem State.Holds.withAcc_ingestByte {s : State} {m : List Byte} (h : s.Holds m) (b : Byte) :
    ((s.withAcc (ingestByte s.acc b)).withNe true).Holds (m ++ [b]) := by
  obtain ⟨hacc, -⟩ := h
  refine ⟨?_, by simp⟩
  rw [State.withNe_acc, State.withAcc_acc, hacc, accAfter_concat]

/-- `FINZ` responds the digest of the message held (41_finalize.md R58). -/
theorem State.Holds.finzDigest_eq_digest {s : State} {m : List Byte} (h : s.Holds m) : s.finzDigest = digest m := by
  obtain ⟨hacc, hne⟩ := h
  rw [State.finzDigest_eq, hacc, hne]
  cases m <;> rfl

/-- The fields of a state that holds `m`, together. -/
theorem State.Holds.eq_mk {s : State} {m : List Byte} (h : s.Holds m) :
    s = ⟨accAfter 0#32 m, decide (0 < m.length), s.presented, s.responses⟩ := by
  obtain ⟨hacc, hne⟩ := h
  rw [← hacc, ← hne]

/-- A command advances the message held, and responds what it asks of that message and nothing else. -/
theorem exec_advances_holds {w : CommandWord} {s t : State} {m : List Byte} (hs : s.Holds m)
    (h : exec (decode w) s = .next t) :
    t.Holds (messageAfter m (.command w)) ∧ t.presented = s.presented ∧
      t.responses = s.responses ++ (responseAt m (.command w)).toList := by
  obtain ⟨hw, rfl⟩ | ⟨b, hw, rfl⟩ | ⟨hw, rfl⟩ | ⟨hw, rfl⟩ := exec_cases h <;>
    simp only [messageAfter, responseAt, hw]
  case inl => exact ⟨s.toInitial_holds_nil, rfl, by simp⟩
  case inr.inl => exact ⟨hs.withAcc_ingestByte b, rfl, by simp⟩
  case inr.inr.inl => exact ⟨State.respond_holds_iff.mpr hs, rfl, by simp [hs.finzDigest_eq_digest]⟩
  case inr.inr.inr =>
    have hacc : s.acc = accAfter 0#32 m := hs.left
    exact ⟨State.respond_holds_iff.mpr hs, rfl, by simp [hacc]⟩

/-- Hardware reset leaves the empty message, whatever the state before it, and responds nothing (70_reset_and_hazards.md
R80, 60_exceptions.md R73). -/
theorem step_reset_holds_nil {s : State} {c : Option CommandWord} {rest : List PortEvent}
    (h : s.presented = .reset c :: rest) :
    ∃ t, step s = .next t ∧ t.Holds [] ∧ t.presented = rest ∧ t.responses = s.responses :=
  ⟨_, step_of_presented_reset h, State.toInitial_holds_nil _, rfl, rfl⟩

/-- A step that takes an event advances the message held, and responds what the event asks of that message and nothing
else. -/
theorem step_advances_holds {s t : State} {m : List Byte} {e : PortEvent} {rest : List PortEvent} (hs : s.Holds m)
    (hp : s.presented = e :: rest) (h : step s = .next t) :
    t.Holds (messageAfter m e) ∧ t.presented = rest ∧ t.responses = s.responses ++ (responseAt m e).toList := by
  cases e with
  | reset c =>
    obtain ⟨u, hu, hholds, hpres, hresp⟩ := step_reset_holds_nil hp
    cases h.symm.trans hu
    exact ⟨hholds, hpres, by simp [responseAt, hresp]⟩
  | command w =>
    rw [step_of_presented_command hp] at h
    exact exec_advances_holds (s := { s with presented := rest }) hs h

/-- A run that takes a list of events, from an engine that holds `m`. -/
theorem run_advances_holds {s : State} {m : List Byte} {es rest : List PortEvent} (hs : s.Holds m)
    (hp : s.presented = es ++ rest) :
    ∃ t, Sys2Proof.core.run es.length s = .next t ∧ t.Holds (messageOf m es) ∧ t.presented = rest ∧
      t.responses = s.responses ++ responsesTo m es := by
  induction es generalizing s m with
  | nil => exact ⟨s, rfl, hs, hp, (List.append_nil _).symm⟩
  | cons e es ih =>
    obtain ⟨u, hu⟩ := s.goesOn
    obtain ⟨hholds, hpres, hresp⟩ := step_advances_holds hs hp hu
    obtain ⟨t, hrun, htholds, htpres, htresp⟩ := ih hholds hpres
    refine ⟨t, (run_succ hu).trans hrun, htholds, htpres, ?_⟩
    rw [htresp, hresp, List.append_assoc, responsesTo]

end Sys2Proof.Machine
end

section
/-! PROOFS. The bytes of a serialised digest (20_memory.md R22), and what `EMITBE` gives after a response
(30_encoding.md R36). -/

namespace Sys2Proof.Machine

/-- An octet of a word, over the natural number the word stands for. -/
theorem extractLsb'_eight_eq_ofNat (d : Word32) (k : Nat) :
    d.extractLsb' k 8 = BitVec.ofNat 8 (d.toNat / 2 ^ k) := by
  rw [← Nat.shiftRight_eq_div_pow]
  rfl

theorem digestBytes_eq_ofNat (d : Word32) :
    digestBytes d = [BitVec.ofNat 8 (d.toNat / 2 ^ 24), BitVec.ofNat 8 (d.toNat / 2 ^ 16),
      BitVec.ofNat 8 (d.toNat / 2 ^ 8), BitVec.ofNat 8 d.toNat] := by
  simp only [digestBytes, extractLsb'_eight_eq_ofNat, Nat.pow_zero, Nat.div_one]

/-- A word is its four octets joined, the first byte most significant. -/
theorem extractLsb'_append_octets (d : Word32) :
    d.extractLsb' 24 8 ++ (d.extractLsb' 16 8 ++ (d.extractLsb' 8 8 ++ d.extractLsb' 0 8)) = d := by
  rw [BitVec.extractLsb'_append_extractLsb'_eq_extractLsb' (by rfl),
    BitVec.extractLsb'_append_extractLsb'_eq_extractLsb' (by rfl),
    BitVec.extractLsb'_append_extractLsb'_eq_extractLsb' (by rfl)]
  exact BitVec.extractLsb'_eq_self

theorem digestBytes_injective : Function.Injective digestBytes := by
  intro d e h
  simp only [digestBytes, List.cons.injEq, and_true] at h
  obtain ⟨h24, h16, h8, h0⟩ := h
  rw [← extractLsb'_append_octets d, ← extractLsb'_append_octets e, h24, h16, h8, h0]

/-- After a response `EMITBE` serialises that response. -/
@[simp] theorem State.respond_emitBE (s : State) (d : Word32) : (s.respond d).emitBE = some (digestBytes d) := by
  simp [State.emitBE]

end Sys2Proof.Machine
end

section
/-! PROOFS. The statements of 20_memory.md: what each finalize reports (R27), and the serialisation of a digest
(R22). -/

namespace Sys2Proof.Machine

/-- Settles O37: the reset leaves the empty message, and every event after it advances the message held. -/
theorem finalizeReportsBytesSinceReset : Obligations.FinalizeReportsBytesSinceReset := by
  unfold Obligations.FinalizeReportsBytesSinceReset
  intro es rest c s hp
  obtain ⟨u, hu, hholds, hpres, hresp⟩ := step_reset_holds_nil hp
  obtain ⟨t, hrun, htholds, htpres, htresp⟩ := run_advances_holds hholds hpres
  rw [run_succ hu, hrun, htholds.eq_mk, htpres, htresp, hresp]

/-- Settles O41: the octets are quotients of the word's number, joined they give the word back, and a finalize puts its
response last. -/
theorem digestBytesAreBigEndian : Obligations.DigestBytesAreBigEndian := by
  unfold Obligations.DigestBytesAreBigEndian
  refine ⟨fun d => ⟨rfl, digestBytes_eq_ofNat d⟩, fun d e h => digestBytes_injective h, by decide, fun d => rfl,
    ?finb, ?finz⟩
  case finb =>
    intro s t h
    rw [exec_finb] at h
    cases h
    exact s.respond_emitBE _
  case finz =>
    intro s t h
    rw [exec_finz] at h
    cases h
    rw [State.respond_emitBE, State.finzDigest_eq]
    cases s.ne <;> rfl

end Sys2Proof.Machine
end

section
/-! PROOFS. The fields of a word over its number, the row of the opcode map that accepts it, and decoding and encoding
by the `op` field (30_encoding.md R30 to R33). -/

namespace Sys2Proof

theorem opField_toNat (w : CommandWord) : (opField w).toNat = w.toNat / 256 := by
  have := w.isLt
  simp only [opField, BitVec.extractLsb'_toNat, Nat.shiftRight_eq_div_pow]
  omega

theorem immField_eq_ofNat (w : CommandWord) : immField w = BitVec.ofNat 8 (w.toNat % 256) := by
  apply BitVec.eq_of_toNat_eq
  simp [immField, BitVec.extractLsb'_toNat]

/-- The `op` field has four values, each assigned (R31). -/
theorem op_cases (op : BitVec 2) : op = 0b00#2 ∨ op = 0b01#2 ∨ op = 0b10#2 ∨ op = 0b11#2 := by
  decide +revert

@[simp] theorem decode_joinFields_rst (imm8 : Byte) : decode (joinFields 0b00#2 imm8) = .rst :=
  decode_joinFields _ _

@[simp] theorem decode_joinFields_upd (imm8 : Byte) : decode (joinFields 0b01#2 imm8) = .upd imm8 :=
  decode_joinFields _ _

@[simp] theorem decode_joinFields_finz (imm8 : Byte) : decode (joinFields 0b10#2 imm8) = .finz :=
  decode_joinFields _ _

@[simp] theorem decode_joinFields_finb (imm8 : Byte) : decode (joinFields 0b11#2 imm8) = .finb :=
  decode_joinFields _ _

theorem decode_of_opField_eq {w : CommandWord} {op : BitVec 2} (h : opField w = op) :
    decode w = decode (joinFields op (immField w)) := by
  rw [← h, joinFields_opField_immField]

/-- The mask `0x300` keeps `op` and clears `imm8` (R31). -/
theorem joinFields_and_mask (op : BitVec 2) (imm8 : Byte) : joinFields op imm8 &&& 0x300#10 = joinFields op 0#8 := by
  have hmask : (0x300#10 : CommandWord) = 0b11#2 ++ 0#8 := by decide
  have hop : op &&& 0b11#2 = op := BitVec.and_allOnes
  have himm : imm8 &&& 0#8 = 0#8 := BitVec.and_zero
  rw [hmask, joinFields, joinFields, BitVec.and_append, hop, himm]

/-- A row of the map accepts a word exactly if it accepts the word with the same `op` and `imm8 = 0`. -/
theorem accepts_joinFields {r : OpcodeRow} (hr : r ∈ opcodeTable) (op : BitVec 2) (imm8 : Byte) :
    r.accepts (joinFields op imm8) = r.accepts (joinFields op 0#8) := by
  have hmask : r.mask = 0x300#10 := by
    revert r
    decide
  simp only [OpcodeRow.accepts, hmask, joinFields_and_mask]

/-- The rows stand in the order of their `op`, and a word is accepted by the row of its own `op` alone (R31). -/
theorem filter_accepts_joinFields (op : BitVec 2) (imm8 : Byte) :
    opcodeTable.filter (·.accepts (joinFields op imm8)) = [opcodeTable[op.toNat]'op.isLt] := by
  rw [List.filter_congr fun r hr => accepts_joinFields hr op imm8]
  decide +revert

theorem mnemonic_decode_joinFields (op : BitVec 2) (imm8 : Byte) :
    (opcodeTable[op.toNat]'op.isLt).mnemonic = (decode (joinFields op imm8)).mnemonic := by
  obtain rfl | rfl | rfl | rfl := op_cases op
  · rw [decode_joinFields_rst]; rfl
  · rw [decode_joinFields_upd]; rfl
  · rw [decode_joinFields_finz]; rfl
  · rw [decode_joinFields_finb]; rfl

/-- Only `UPD` reads `imm8` (R33). -/
theorem decode_joinFields_of_ne_upd {op : BitVec 2} (h : op ≠ 0b01#2) (imm8 : Byte) :
    decode (joinFields op imm8) = decode (joinFields op 0#8) := by
  obtain rfl | rfl | rfl | rfl := op_cases op
  · simp
  · exact absurd rfl h
  · simp
  · simp

/-- A canonical word is its own: the encoder writes it for the command it decodes to. -/
theorem encode_decode_joinFields_zero (op : BitVec 2) :
    encode (decode (joinFields op 0#8)) = joinFields op 0#8 := by
  decide +revert

theorem encode_decode_joinFields_upd (imm8 : Byte) :
    encode (decode (joinFields 0b01#2 imm8)) = joinFields 0b01#2 imm8 := by
  rw [decode_joinFields_upd, encode]

theorem Instr.wellFormed_eq_true (i : Instr) : i.wellFormed = true := by
  cases i with
  | rst => exact Laws.CanonicalWord.rst.left
  | upd b => exact (Laws.CanonicalWord.upd b).left
  | finz => exact Laws.CanonicalWord.finz.left
  | finb => exact Laws.CanonicalWord.finb.left

end Sys2Proof
end

section
/-! PROOFS. The step that runs a word presented first, and that no command is a no-operation (30_encoding.md R33). -/

namespace Sys2Proof.Machine

theorem step_presentFirst (s : State) (w : CommandWord) : step (s.presentFirst w) = exec (decode w) s :=
  step_of_presented_command (s.presentFirst_presented w)

theorem State.respond_ne_self (s : State) (d : Word32) : s.respond d ≠ s := by
  intro h
  have hresp : s.responses ++ [d] = s.responses := congrArg State.responses h
  simp at hresp

/-- `RST` clears a set `NE`, `UPD` sets a clear one, and the finalize commands add a response. -/
theorem exists_exec_ne_next_self (i : Instr) : ∃ s : State, exec i s ≠ .next s := by
  cases i with
  | rst =>
    refine ⟨State.reset.withNe true, fun h => ?_⟩
    have hne : false = true := congrArg State.ne (Host.Outcome.next.inj h)
    cases hne
  | upd b =>
    refine ⟨State.reset, fun h => ?_⟩
    have hne : true = false := congrArg State.ne (Host.Outcome.next.inj h)
    cases hne
  | finz => exact ⟨State.reset, fun h => State.respond_ne_self _ _ (Host.Outcome.next.inj h)⟩
  | finb => exact ⟨State.reset, fun h => State.respond_ne_self _ _ (Host.Outcome.next.inj h)⟩

end Sys2Proof.Machine
end

section
/-! PROOFS. The statements of 30_encoding.md: the opcode map (R31), and the ignored `imm8` (R33). -/

namespace Sys2Proof.Machine

/-- Settles O14: a word is its two fields joined, the mask keeps `op` alone, and the four values of `op` are the four
rows. -/
theorem everyWordBelongsToOneRow : Obligations.EveryWordBelongsToOneRow := by
  unfold Obligations.EveryWordBelongsToOneRow
  refine ⟨?row, ?rst, ?upd, ?finz, ?finb, opField_toNat, rfl, fun b => (Laws.CanonicalWord.upd b).right, rfl, rfl⟩
  case row =>
    intro w
    rw [← joinFields_opField_immField w]
    exact ⟨_, filter_accepts_joinFields _ _, mnemonic_decode_joinFields _ _⟩
  case rst => exact fun w h => (decode_of_opField_eq h).trans (decode_joinFields_rst _)
  case upd =>
    intro w h
    rw [decode_of_opField_eq h, decode_joinFields_upd, immField_eq_ofNat]
  case finz => exact fun w h => (decode_of_opField_eq h).trans (decode_joinFields_finz _)
  case finb => exact fun w h => (decode_of_opField_eq h).trans (decode_joinFields_finb _)

/-- Settles O15: outside `UPD` a word decodes as the canonical word of its `op`, so it is encoded and run as that
word. -/
theorem immediateIsIgnoredOutsideUpd : Obligations.ImmediateIsIgnoredOutsideUpd := by
  unfold Obligations.ImmediateIsIgnoredOutsideUpd
  refine ⟨?ignored, encode_decode_joinFields_upd, ?fields, fun w => (decode w).wellFormed_eq_true,
    exists_exec_ne_next_self, fun s => step_of_presented_nil⟩
  case ignored =>
    intro op imm8 hop
    have hdecode := decode_joinFields_of_ne_upd hop imm8
    refine ⟨hdecode, ?_, fun s => ?_⟩
    · rw [hdecode, encode_decode_joinFields_zero]
    · rw [step_presentFirst, step_presentFirst, hdecode]
  case fields => exact fun w => ⟨_, _, (joinFields_opField_immField w).symm⟩

end Sys2Proof.Machine
end

section
/-! PROOFS. The shifted exclusive-or `t ^ (t >> k)` and its inverse, the exclusive-or of the shifts by the multiples of
`k` (40_ingest.md R42, 41_finalize.md R54). -/

namespace Sys2Proof.Machine

/-- The exclusive-or of the first `n` right shifts of `r` by the multiples of `k`: `r ^ (r >> k) ^ (r >> 2k) ^ ...`. -/
def xorOfShifts (k : Nat) : Nat → Word32 → Word32
  | 0, _ => 0#32
  | n + 1, r => xorOfShifts k n r ^^^ r >>> (k * n)

/-- The shifts telescope: of `t ^ (t >> k)` only the first and the last remain. -/
theorem xorOfShifts_xor_shift (k n : Nat) (t : Word32) :
    xorOfShifts k n (t ^^^ t >>> k) = t ^^^ t >>> (k * n) := by
  induction n with
  | zero => simp [xorOfShifts]
  | succ n ih =>
    have hlast : t >>> k >>> (k * n) = t >>> (k * (n + 1)) := by
      rw [← BitVec.shiftRight_add, Nat.mul_succ, Nat.add_comm]
    rw [xorOfShifts, ih, BitVec.ushiftRight_xor_distrib, hlast, BitVec.xor_assoc,
      ← BitVec.xor_assoc (t >>> (k * n)), BitVec.xor_self, BitVec.zero_xor]

/-- Shifts that reach past bit 31 invert the shifted exclusive-or. -/
theorem xorOfShifts_xor_shift_eq_self {k n : Nat} (h : 32 ≤ k * n) (t : Word32) :
    xorOfShifts k n (t ^^^ t >>> k) = t := by
  rw [xorOfShifts_xor_shift, BitVec.ushiftRight_eq_zero h, BitVec.xor_zero]

end Sys2Proof.Machine
end

section
/-! PROOFS. `Mix32` over natural numbers, that it is a bijection (40_ingest.md R40, R42), and `FINZ` with `NE = 1`, the
other command that uses it (41_finalize.md R52). -/

namespace Sys2Proof.Machine

theorem mix32_toNat (v : Word32) :
    (mix32 v).toNat = v.toNat * 1025 % 2 ^ 32 ^^^ v.toNat * 1025 % 2 ^ 32 / 2 ^ 6 := by
  rw [mix32_eq, BitVec.toNat_xor, BitVec.toNat_ushiftRight, BitVec.toNat_mul, Nat.shiftRight_eq_div_pow]
  rfl

theorem mix32Inv_eq (r : Word32) : mix32Inv r = xorOfShifts 6 6 r * 0xC00FFC01#32 := by
  simp [mix32Inv, xorOfShifts]

/-- The shifts undo the second line of `Mix32`, the multiplier undoes the first. -/
theorem mix32Inv_leftInverse : Function.LeftInverse mix32Inv mix32 := by
  intro v
  have hmul : 1025#32 * 0xC00FFC01#32 = 1#32 := by decide
  rw [mix32_eq, mix32Inv_eq, xorOfShifts_xor_shift_eq_self (by decide), BitVec.mul_assoc, hmul, BitVec.mul_one]

theorem mix32_injective : Function.Injective mix32 := mix32Inv_leftInverse.injective

/-- The words are finitely many, so an injective map of them is bijective. -/
theorem mix32_bijective : Function.Bijective mix32 := Finite.injective_iff_bijective.mp mix32_injective

theorem mix32Inv_rightInverse : Function.RightInverse mix32Inv mix32 :=
  mix32Inv_leftInverse.rightInverse_of_surjective mix32_bijective.surjective

@[simp] theorem mix32_zero : mix32 0#32 = 0#32 := by decide

@[simp] theorem mix32_eq_zero_iff {v : Word32} : mix32 v = 0#32 ↔ v = 0#32 := mix32_injective.eq_iff' mix32_zero

/-- With `NE = 1` the word `FINZ` responds is the never-zero digest of `ACC` (41_finalize.md R52). -/
theorem exec_finz_of_ne_true {s : State} (h : s.ne = true) :
    exec .finz s = .next (s.respond (neverZeroDigest s.acc)) := by
  simp [State.finzDigest_eq, h]

end Sys2Proof.Machine
end

section
/-! PROOFS. The update of one octet over natural numbers, and what it separates (40_ingest.md R41, R43). -/

namespace Sys2Proof.Machine

theorem addend_injective : Function.Injective addend := by
  intro b b' h
  have hnat := congrArg BitVec.toNat h
  rw [addend_toNat, addend_toNat] at hnat
  exact BitVec.eq_of_toNat_eq (Nat.succ.inj hnat)

theorem ingestByte_eq_mix32_ofNat (a : Word32) (b : Byte) :
    ingestByte a b = mix32 (BitVec.ofNat 32 (a.toNat + (b.toNat + 1))) := by
  rw [ingestByte, add32, ← addend_toNat, BitVec.ofNat_add, BitVec.ofNat_toNat, BitVec.ofNat_toNat,
    BitVec.setWidth_eq, BitVec.setWidth_eq]

/-- For a fixed accumulator different octets give different results: the sums differ, and `Mix32` keeps them apart. -/
theorem ingestByte_injective (a : Word32) : Function.Injective (ingestByte a) := by
  intro b b' h
  have hsum : a + addend b = a + addend b' := mix32_injective h
  exact addend_injective (BitVec.add_right_inj a |>.mp hsum)

/-- The result is 0 exactly if the add step wraps to 0. -/
theorem ingestByte_eq_zero_iff {a : Word32} {b : Byte} :
    ingestByte a b = 0#32 ↔ a.toNat = 2 ^ 32 - 1 - b.toNat := by
  have ha := a.isLt
  have hb := b.isLt
  rw [ingestByte_eq_mix32_ofNat, mix32_eq_zero_iff, ← BitVec.toNat_inj, BitVec.toNat_ofNat, BitVec.toNat_ofNat]
  omega

theorem ingestByte_zero_ne_zero (b : Byte) : ingestByte 0#32 b ≠ 0#32 := by
  have hb := b.isLt
  rw [Ne, ingestByte_eq_zero_iff, BitVec.toNat_ofNat]
  omega

/-- The accumulators from which some octet leads to 0. -/
theorem exists_ingestByte_eq_zero_iff {a : Word32} : (∃ b, ingestByte a b = 0#32) ↔ 0xFFFFFF00 ≤ a.toNat := by
  have ha := a.isLt
  simp only [ingestByte_eq_zero_iff]
  constructor
  · rintro ⟨b, hb⟩
    have := b.isLt
    omega
  · intro h
    refine ⟨BitVec.ofNat 8 (2 ^ 32 - 1 - a.toNat), ?_⟩
    rw [BitVec.toNat_ofNat]
    omega

/-- The word of `UPD b` is its number (30_encoding.md R31). -/
theorem encode_upd_eq_ofNat (b : Byte) : encode (.upd b) = BitVec.ofNat 10 (0x100 + b.toNat) := by
  have hnat : (encode (.upd b)).toNat = 0x100 + b.toNat := (Laws.CanonicalWord.upd b).right
  rw [← hnat, BitVec.ofNat_toNat, BitVec.setWidth_eq]

end Sys2Proof.Machine
end

section
/-! PROOFS. Ingesting a sequence: `Acc` over a split, and what `INGEST x` leaves (40_ingest.md R45). -/

namespace Sys2Proof.Machine

theorem accAfter_append (a : Word32) (x y : List Byte) : accAfter a (x ++ y) = accAfter (accAfter a x) y :=
  List.foldl_append

theorem ingest_append (x y : List Byte) : ingest (x ++ y) = ingest x ++ ingest y := List.map_append

/-- `INGEST x` from any state: `ACC` is the fold, `NE` is set unless `x` is empty, and nothing else changes. -/
theorem execAll_ingest (x : List Byte) (s : State) :
    execAll (ingest x) s = .next ((s.withAcc (accAfter s.acc x)).withNe (s.ne || decide (0 < x.length))) := by
  induction x generalizing s with
  | nil => simp [ingest, execAll, accAfter, State.withAcc, State.withNe]
  | cons b x ih =>
    rw [ingest, List.map_cons, execAll_cons (exec_upd b s), ← ingest, ih]
    simp [accAfter_cons, State.withAcc, State.withNe]

end Sys2Proof.Machine
end

section
/-! PROOFS. The statements of 40_ingest.md: `Mix32` (R40, R42), `UPD` (R41, R43), and ingesting a sequence (R45). -/

namespace Sys2Proof.Machine

/-- Settles O2: the two lines are a product and a shifted exclusive-or; `UPD` mixes the sum, and with `NE = 1` a nonzero
mix passes the remap. -/
theorem mixIsAddThenXorOfTheSum : Obligations.MixIsAddThenXorOfTheSum := by
  unfold Obligations.MixIsAddThenXorOfTheSum
  refine ⟨mix32_toNat, by decide, by decide, by decide, by decide, fun b s => ⟨_, exec_upd b s, rfl⟩, ?finz⟩
  case finz =>
    intro s hne hmix
    rw [exec_finz_of_ne_true hne, neverZeroDigest, neverZero_of_ne_zero hmix]
    rfl

/-- Settles O4: the stated inverse undoes `Mix32`, and on a finite set a left inverse of an injective map is its
inverse. -/
theorem mixIsBijectiveWithStatedInverse : Obligations.MixIsBijectiveWithStatedInverse := by
  unfold Obligations.MixIsBijectiveWithStatedInverse
  exact ⟨mix32_bijective, mix32Inv_leftInverse, mix32Inv_rightInverse, fun v => mix32_eq_zero_iff, fun r => rfl,
    by decide, by decide, by decide⟩

/-- Settles O6: the canonical word, the equation of `UPD` with the sum over natural numbers, and the six updates of the
rule evaluated. -/
theorem updAddsByteAndMixes : Obligations.UpdAddsByteAndMixes := by
  unfold Obligations.UpdAddsByteAndMixes
  refine ⟨?word, ?result, ?cases⟩
  case word =>
    intro b
    refine ⟨(Laws.CanonicalWord.upd b).right, ?_⟩
    rw [← encode_upd_eq_ofNat]
    exact decode_joinFields_upd b
  case result =>
    intro b s
    rw [exec_upd, ingestByte_eq_mix32_ofNat]
    rfl
  case cases =>
    intro r hr
    have hupdate : ingestByte r.1 r.2.1 = r.2.2 := by
      simp only [List.mem_cons, List.not_mem_nil, or_false] at hr
      obtain rfl | rfl | rfl | rfl | rfl | rfl := hr <;> rfl
    intro s hacc
    rw [exec_upd, hacc, hupdate]
    rfl

/-- Settles O27: the update is injective in the octet, and gives 0 exactly if the add step wraps to 0. -/
theorem updSeparatesBytes : Obligations.UpdSeparatesBytes := by
  unfold Obligations.UpdSeparatesBytes
  refine ⟨?injective, ?zero, ?some⟩
  case injective =>
    intro b b' s t t' h h' hacc
    rw [exec_upd] at h h'
    cases h
    cases h'
    exact ingestByte_injective s.acc hacc
  case zero =>
    intro b s t h
    rw [exec_upd] at h
    cases h
    refine ⟨fun hacc => ?_, ingestByte_eq_zero_iff⟩
    rw [State.withNe_acc, State.withAcc_acc, hacc]
    exact ingestByte_zero_ne_zero b
  case some =>
    intro s
    rw [← exists_ingestByte_eq_zero_iff]
    simp

/-- Settles O33: the left fold over a list's end and over a split, by induction the state `INGEST x` leaves, and the
empty sequence colliding with four octets that return to 0. -/
theorem ingestIsTheFoldOfUpd : Obligations.IngestIsTheFoldOfUpd := by
  unfold Obligations.IngestIsTheFoldOfUpd
  refine ⟨fun a => rfl, accAfter_concat, execAll_ingest, ?fromReset, accAfter_append, ?split, ?collision⟩
  case fromReset =>
    intro x s
    rw [execAll_cons (exec_rst s), execAll_ingest, State.toInitial_ne, Bool.false_or]
    rfl
  case split => exact fun x y s => by rw [ingest_append]
  case collision => exact ⟨[], bytesBackToZero, by decide, by decide⟩

end Sys2Proof.Machine
end

section
/-! PROOFS. `Fin32` over natural numbers, and that it is a bijection with the stated inverse (41_finalize.md R50,
R54). -/

namespace Sys2Proof.Machine

theorem fin32_toNat (v : Word32) :
    (fin32 v).toNat = (v.toNat * 9 % 2 ^ 32 ^^^ v.toNat * 9 % 2 ^ 32 / 2 ^ 11) * 32769 % 2 ^ 32 := by
  rw [fin32_eq, BitVec.toNat_mul, BitVec.toNat_xor, BitVec.toNat_ushiftRight, BitVec.toNat_mul,
    Nat.shiftRight_eq_div_pow]
  rfl

theorem fin32Inv_eq (y : Word32) : fin32Inv y = xorOfShifts 11 3 (y * 0x3FFF8001#32) * 0x38E38E39#32 := by
  simp [fin32Inv, xorOfShifts]

/-- The two multipliers undo the third and the first line of `Fin32`, the shifts undo the second. -/
theorem fin32Inv_leftInverse : Function.LeftInverse fin32Inv fin32 := by
  intro v
  have hthird : 32769#32 * 0x3FFF8001#32 = 1#32 := by decide
  have hfirst : 9#32 * 0x38E38E39#32 = 1#32 := by decide
  rw [fin32_eq, fin32Inv_eq, BitVec.mul_assoc, hthird, BitVec.mul_one, xorOfShifts_xor_shift_eq_self (by decide),
    BitVec.mul_assoc, hfirst, BitVec.mul_one]

theorem fin32_injective : Function.Injective fin32 := fin32Inv_leftInverse.injective

theorem fin32_bijective : Function.Bijective fin32 := Finite.injective_iff_bijective.mp fin32_injective

theorem fin32Inv_rightInverse : Function.RightInverse fin32Inv fin32 :=
  fin32Inv_leftInverse.rightInverse_of_surjective fin32_bijective.surjective

@[simp] theorem fin32_eq_zero_iff {v : Word32} : fin32 v = 0#32 ↔ v = 0#32 := fin32_injective.eq_iff' fin32_zero

theorem fin32_eq_iff_eq_fin32Inv {v y : Word32} : fin32 v = y ↔ v = fin32Inv y :=
  fin32_injective.eq_iff' (fin32Inv_rightInverse y)

theorem mix32_eq_iff_eq_mix32Inv {v r : Word32} : mix32 v = r ↔ v = mix32Inv r :=
  mix32_injective.eq_iff' (mix32Inv_rightInverse r)

end Sys2Proof.Machine
end

section
/-! PROOFS. The never-zero pipeline: which accumulators give which digest (41_finalize.md R52, R55, R57). -/

namespace Sys2Proof.Machine

theorem fin32_one : fin32 1#32 = 0x00048009#32 := by decide

theorem mix32Inv_one : mix32Inv 1#32 = 0xC00FFC01#32 := by decide

/-- The remap sends both 0 and 1 to 1: the one pair it does not keep apart. -/
theorem neverZero_eq_one_iff {w : Word32} : neverZero w = 1#32 ↔ w = 0#32 ∨ w = 1#32 := by
  by_cases hw : w = 0#32
  · simp [hw, neverZero]
  · simp [hw, neverZero_of_ne_zero]

/-- Every value but 0 and 1 comes out of the remap from itself alone. -/
theorem neverZero_eq_iff {w r : Word32} (hzero : r ≠ 0#32) (hone : r ≠ 1#32) : neverZero w = r ↔ w = r := by
  by_cases hw : w = 0#32
  · simp [hw, neverZero, hzero.symm, hone.symm]
  · rw [neverZero_of_ne_zero hw]

theorem neverZeroDigest_ne_zero (a : Word32) : neverZeroDigest a ≠ 0#32 :=
  mt fin32_eq_zero_iff.mp (neverZero_ne_zero _)

/-- The collision: the remap fires at `ACC = 0`, and `0xC00FFC01` mixes to what it puts there. -/
theorem neverZeroDigest_eq_collision_iff {a : Word32} :
    neverZeroDigest a = 0x00048009#32 ↔ a = 0#32 ∨ a = 0xC00FFC01#32 := by
  rw [neverZeroDigest, fin32_injective.eq_iff' fin32_one, neverZero_eq_one_iff, mix32_eq_zero_iff,
    mix32_eq_iff_eq_mix32Inv, mix32Inv_one]

/-- Every other nonzero digest comes from the one accumulator that the two inverses give. -/
theorem neverZeroDigest_eq_iff {a d : Word32} (hzero : d ≠ 0#32) (hcollision : d ≠ 0x00048009#32) :
    neverZeroDigest a = d ↔ a = mix32Inv (fin32Inv d) := by
  have hinvZero : fin32Inv d ≠ 0#32 := fun h => hzero (by rw [← fin32Inv_rightInverse d, h, fin32_zero])
  have hinvOne : fin32Inv d ≠ 1#32 := fun h => hcollision (by rw [← fin32Inv_rightInverse d, h, fin32_one])
  rw [neverZeroDigest, fin32_eq_iff_eq_fin32Inv, neverZero_eq_iff hinvZero hinvOne, mix32_eq_iff_eq_mix32Inv]

/-- `FINZ` answers 0 exactly if nothing was ingested since reset (41_finalize.md R55). -/
theorem State.finzDigest_eq_zero_iff {s : State} : s.finzDigest = 0#32 ↔ s.ne = false := by
  rw [State.finzDigest_eq]
  cases s.ne with
  | false => simp
  | true => simp [neverZeroDigest_ne_zero]

end Sys2Proof.Machine
end

section
/-! PROOFS. Which word a finalize command responds, and that it is the only effect of the command (41_finalize.md R51
to R53). -/

namespace Sys2Proof.Machine

theorem State.respond_inj {s : State} {d e : Word32} : s.respond d = s.respond e ↔ d = e := by
  constructor
  · intro h
    have hresp : s.responses ++ [d] = s.responses ++ [e] := congrArg State.responses h
    simpa using hresp
  · exact congrArg s.respond

theorem exec_finb_eq_respond_iff {s : State} {d : Word32} :
    exec .finb s = .next (s.respond d) ↔ fin32 s.acc = d := by
  rw [exec_finb, Host.Outcome.next.injEq, State.respond_inj]

theorem exec_finz_eq_respond_iff {s : State} {d : Word32} :
    exec .finz s = .next (s.respond d) ↔ s.finzDigest = d := by
  rw [exec_finz, Host.Outcome.next.injEq, State.respond_inj]

theorem exec_finz_eq_respond_iff_of_ne_true {s : State} (h : s.ne = true) {d : Word32} :
    exec .finz s = .next (s.respond d) ↔ neverZeroDigest s.acc = d := by
  rw [exec_finz_of_ne_true h, Host.Outcome.next.injEq, State.respond_inj]

/-- A finalize command adds one word, the same in every state with this `(ACC, NE)`. -/
theorem exec_finalize {f : Instr} (hf : f = .finz ∨ f = .finb) (s : State) :
    ∃ d, ∀ s' : State, s'.acc = s.acc → s'.ne = s.ne → exec f s' = .next (s'.respond d) := by
  obtain rfl | rfl := hf
  · exact ⟨s.finzDigest, fun s' hacc hne => by rw [exec_finz, State.finzDigest_congr hacc hne]⟩
  · exact ⟨fin32 s.acc, fun s' hacc _ => by rw [exec_finb, hacc]⟩

end Sys2Proof.Machine
end

section
/-! PROOFS. Commands and sequences as the spec's `Step` gives them (42_control_and_sequences.md R66), and a sequence
that starts with `RST` and `INGEST x` (R63). -/

namespace Sys2Proof.Machine

/-- A command changes `(ACC, NE)` and responds as `Step` says; earlier responses have no part in it. -/
theorem exec_eq_specStep (i : Instr) (s : State) :
    exec i s = .next
      { s with
        acc := (specStep (s.acc, s.ne) i).1.1
        ne := (specStep (s.acc, s.ne) i).1.2
        responses := s.responses ++ (specStep (s.acc, s.ne) i).2.toList } := by
  obtain ⟨acc, ne, presented, responses⟩ := s
  cases i with
  | rst => simp [specStep, State.toInitial, State.withAcc, State.withNe]
  | upd b => simp [specStep, State.withAcc, State.withNe, ingestByte, addend]
  | finz => cases ne <;> rfl
  | finb => rfl

/-- A sequence leaves the state, and adds the responses, of the run of `Step`. -/
theorem execAll_eq_specRun (is : List Instr) (s : State) :
    execAll is s = .next
      { s with
        acc := (specRun (s.acc, s.ne) is).1.1
        ne := (specRun (s.acc, s.ne) is).1.2
        responses := s.responses ++ (specRun (s.acc, s.ne) is).2 } := by
  induction is generalizing s with
  | nil => simp [execAll, specRun]
  | cons i is ih =>
    rw [execAll_cons (exec_eq_specStep i s), ih]
    simp [specRun]

theorem execAll_rst_ingest_append (x : List Byte) (is : List Instr) (s : State) :
    execAll (.rst :: (ingest x ++ is)) s =
      execAll is ((s.withAcc (accAfter 0#32 x)).withNe (decide (0 < x.length))) := by
  rw [execAll_cons (exec_rst s), execAll_append (execAll_ingest x _), State.toInitial_ne, Bool.false_or]
  rfl

theorem execAll_singleton (i : Instr) (s : State) : execAll [i] s = exec i s := by
  obtain ⟨t, h⟩ := exec_eq_next i s
  rw [execAll_cons h, h]
  rfl

end Sys2Proof.Machine
end

section
/-! PROOFS. The statements of 41_finalize.md: `Fin32` (R50, R54), `FINB` and `FINZ` (R51, R52), that finalizing is pure
(R53), and which accumulators give which digest (R55 to R57). -/

namespace Sys2Proof.Machine

/-- Settles O3: the three lines are a product, a shifted exclusive-or and a product; both commands only respond. -/
theorem finIsThreeStepPostprocess : Obligations.FinIsThreeStepPostprocess := by
  unfold Obligations.FinIsThreeStepPostprocess
  exact ⟨fin32_toNat, by decide, by decide, by decide, by decide,
    fun s => ⟨_, _, exec_finb s, exec_finz s, rfl, rfl⟩⟩

/-- Settles O5: the stated inverse undoes `Fin32`, and on a finite set a left inverse of an injective map is its
inverse; so it recovers `ACC` from the response of `FINB`. -/
theorem finIsBijectiveWithStatedInverse : Obligations.FinIsBijectiveWithStatedInverse := by
  unfold Obligations.FinIsBijectiveWithStatedInverse
  exact ⟨fin32_bijective, fin32Inv_leftInverse, fin32Inv_rightInverse, fun v => fin32_eq_zero_iff, fun y => rfl,
    by decide, by decide, fun s => ⟨_, _, exec_finb s, rfl, (fin32Inv_leftInverse s.acc).symm⟩, by decide, by decide⟩

/-- Settles O8: the word of `op` 11, the equation of `FINB`, and that `Fin32` gives 0 from 0 alone. -/
theorem finbRespondsBasePostprocess : Obligations.FinbRespondsBasePostprocess := by
  unfold Obligations.FinbRespondsBasePostprocess
  refine ⟨rfl, decode_joinFields_finb, exec_finb, ?zero, ?worked⟩
  case zero => exact fun s => exec_finb_eq_respond_iff.trans fin32_eq_zero_iff
  case worked =>
    intro s hacc
    refine exec_finb_eq_respond_iff.mpr ?_
    rw [hacc]
    decide

/-- Settles O9: the word of `op` 10, the equation of `FINZ` by cases on `NE`, and the four rows evaluated. -/
theorem finzRespondsNeverZeroDigest : Obligations.FinzRespondsNeverZeroDigest := by
  unfold Obligations.FinzRespondsNeverZeroDigest
  refine ⟨rfl, decode_joinFields_finz, ?result, ?cases⟩
  case result =>
    intro s
    have hdigest : s.finzDigest = if s.ne = false then 0#32
        else fin32 (if mix32 s.acc = 0#32 then 1#32 else mix32 s.acc) := by
      rw [State.finzDigest_eq]
      cases s.ne <;> rfl
    rw [exec_finz, hdigest]
    rfl
  case cases =>
    intro r hr
    have hdigest : (if r.2.1 then neverZeroDigest r.1 else 0#32) = r.2.2 := by
      simp only [List.mem_cons, List.not_mem_nil, or_false] at hr
      obtain rfl | rfl | rfl | rfl := hr <;> rfl
    intro s hacc hne
    refine exec_finz_eq_respond_iff.mpr ?_
    rw [State.finzDigest_eq, hacc, hne, hdigest]

/-- Settles O29: a finalize command leaves `(ACC, NE)`, which is all its own answer and the commands after it read. -/
theorem finalizeIsPureAndDeletable : Obligations.FinalizeIsPureAndDeletable := by
  unfold Obligations.FinalizeIsPureAndDeletable
  refine ⟨fun f hf => ⟨?twice, ?deleted⟩, ?finz, ?finb⟩
  case twice =>
    intro s
    obtain ⟨d, hd⟩ := exec_finalize hf s
    refine ⟨d, ?_⟩
    rw [execAll_cons (hd s rfl rfl), execAll_singleton, hd (s.respond d) rfl rfl]
    simp [State.respond]
  case deleted =>
    intro is js s
    obtain ⟨t, ht⟩ : ∃ t, execAll is s = .next t := ⟨_, execAll_eq_specRun is s⟩
    obtain ⟨d, hd⟩ := exec_finalize hf t
    refine ⟨t, _, _, d, (specRun (t.acc, t.ne) js).2, ht,
      (execAll_append ht).trans ((execAll_cons (hd t rfl rfl)).trans (execAll_eq_specRun js _)),
      (execAll_append ht).trans (execAll_eq_specRun js t), rfl, rfl, rfl, ?_, rfl⟩
    simp
  case finz =>
    intro s s' hacc hne
    obtain ⟨d, hd⟩ := exec_finalize (.inl rfl) s
    exact ⟨d, hd s rfl rfl, hd s' hacc.symm hne.symm⟩
  case finb =>
    intro s s' hacc
    refine ⟨fin32 s.acc, exec_finb s, ?_⟩
    rw [hacc]
    exact exec_finb s'

/-- Settles O30: the pipeline never gives 0, so the answer is 0 exactly with `NE = 0`; and `NE` after `RST` and
`INGEST x` says whether `x` is nonempty. -/
theorem nonemptyInputNeverDigestsToZero : Obligations.NonemptyInputNeverDigestsToZero := by
  unfold Obligations.NonemptyInputNeverDigestsToZero
  refine ⟨?zero, ?range, ?message, ?afterRst⟩
  case zero => exact fun s => exec_finz_eq_respond_iff.trans State.finzDigest_eq_zero_iff
  case range =>
    intro s hne
    have hlt := (neverZeroDigest s.acc).isLt
    have hpos : (neverZeroDigest s.acc).toNat ≠ 0 :=
      BitVec.toNat_ne_iff_ne.mpr (neverZeroDigest_ne_zero s.acc)
    exact ⟨neverZeroDigest s.acc, Nat.one_le_iff_ne_zero.mpr hpos, Nat.le_pred_of_lt hlt, exec_finz_of_ne_true hne⟩
  case message =>
    intro x s
    rw [execAll_rst_ingest_append, execAll_singleton]
    refine ⟨_, _, exec_finz _, rfl, ?_⟩
    rw [State.finzDigest_eq_zero_iff]
    simp
  case afterRst =>
    intro s
    rw [execAll_cons (exec_rst s), execAll_singleton]
    exact exec_finz_of_ne_false s.toInitial_ne

/-- Settles O31: `Fin32` gives 0 from 0 alone, and after `RST` and `INGEST x` the accumulator is `Acc(0, x)`. -/
theorem baseDigestIsZeroOnlyAtZero : Obligations.BaseDigestIsZeroOnlyAtZero := by
  unfold Obligations.BaseDigestIsZeroOnlyAtZero
  refine ⟨?zero, ?message, rfl, by decide⟩
  case zero =>
    intro s t h
    rw [exec_finb] at h
    cases h
    simp
  case message =>
    intro x s hacc
    rw [execAll_rst_ingest_append, execAll_singleton]
    exact ⟨_, exec_finb_of_acc_zero hacc, rfl⟩

/-- Settles O32: the mix, the remap and `Fin32` inverted one after the other; the remap alone is not injective, at 0
and 1. -/
theorem remapMakesExactlyOneCollision : Obligations.RemapMakesExactlyOneCollision := by
  unfold Obligations.RemapMakesExactlyOneCollision
  refine ⟨?pair, ?others, mix32Inv_one, fin32_one, rfl, rfl⟩
  case pair =>
    intro s hne
    exact ⟨mix32_eq_zero_iff,
      (exec_finz_eq_respond_iff_of_ne_true hne).trans neverZeroDigest_eq_collision_iff,
      mt (exec_finz_eq_respond_iff_of_ne_true hne).mp (neverZeroDigest_ne_zero s.acc)⟩
  case others =>
    intro d hzero hcollision
    exact ⟨mix32Inv (fin32Inv d), fun s hne =>
      (exec_finz_eq_respond_iff_of_ne_true hne).trans (neverZeroDigest_eq_iff hzero hcollision)⟩

end Sys2Proof.Machine
end

section
/-! PROOFS. What presenting does not change in a command's meaning, that the decoder undoes the encoder, and a sequence
presented at the command port (30_encoding.md R31, 42_control_and_sequences.md R66). -/

namespace Sys2Proof.Machine

/-- The decoder gives back the command whose canonical word it reads (30_encoding.md R31). -/
@[simp] theorem decode_encode (i : Instr) : decode (encode i) = i := by
  cases i with
  | rst => exact decode_joinFields_rst _
  | upd b => exact decode_joinFields_upd b
  | finz => exact decode_joinFields_finz _
  | finb => exact decode_joinFields_finb _

/-- A command neither reads nor takes what the host presents. -/
theorem exec_with_presented {i : Instr} {s t : State} (h : exec i s = .next t) (p : List PortEvent) :
    exec i { s with presented := p } = .next { t with presented := p } := by
  obtain ⟨rfl, rfl⟩ | ⟨b, rfl, rfl⟩ | ⟨rfl, rfl⟩ | ⟨rfl, rfl⟩ := exec_cases h
  · rfl
  · rfl
  · rfl
  · rfl

/-- The canonical words of a sequence, presented first, are taken in one step each, and the run is the sequence's. -/
theorem run_commandEvents {is : List Instr} {rest : List PortEvent} {s : State}
    (hp : s.presented = commandEvents is ++ rest) :
    Sys2Proof.core.run is.length s = execAll is { s with presented := rest } := by
  induction is generalizing s with
  | nil =>
    obtain rfl : s.presented = rest := hp
    rfl
  | cons i is ih =>
    obtain ⟨t, ht⟩ := exec_eq_next i { s with presented := rest }
    have hstep : step s = .next { t with presented := commandEvents is ++ rest } := by
      rw [step_of_presented_command (rest := commandEvents is ++ rest) hp, decode_encode]
      exact exec_with_presented ht _
    have hrest : { t with presented := rest } = t := Host.Outcome.next.inj
      ((exec_with_presented ht rest).symm.trans ht)
    rw [List.length_cons, run_succ hstep, ih rfl, execAll_cons ht, hrest]

end Sys2Proof.Machine
end

section
/-! PROOFS. Which events clear `NE` (42_control_and_sequences.md R60), what `CHECKSUM x` leaves (R63), and that a run of
`Step` keeps its final state when its finalize commands are deleted (R67). -/

namespace Sys2Proof.Machine

/-- Of the commands only `RST` clears `NE`. -/
theorem eq_rst_of_exec_clears_ne {i : Instr} {s t : State} (h : exec i s = .next t) (hs : s.ne = true)
    (ht : t.ne = false) : i = .rst := by
  obtain ⟨hi, -⟩ | ⟨b, -, rfl⟩ | ⟨-, rfl⟩ | ⟨-, rfl⟩ := exec_cases h
  · exact hi
  · cases ht
  · exact absurd (hs.symm.trans ht) (by decide)
  · exact absurd (hs.symm.trans ht) (by decide)

/-- A step that clears `NE` takes a hardware reset or a word of `RST`. -/
theorem presented_of_step_clears_ne {s t : State} (h : step s = .next t) (hs : s.ne = true) (ht : t.ne = false) :
    (∃ c rest, s.presented = .reset c :: rest) ∨ (∃ w rest, s.presented = .command w :: rest ∧ decode w = .rst) := by
  obtain ⟨-, rfl⟩ | ⟨c, rest, hp, -⟩ | ⟨w, rest, hp, hexec⟩ := step_cases h
  · exact absurd (hs.symm.trans ht) (by decide)
  · exact .inl ⟨c, rest, hp⟩
  · exact .inr ⟨w, rest, hp, eq_rst_of_exec_clears_ne (s := { s with presented := rest }) hexec hs ht⟩

/-- Directly after `RST` the primary finalize responds the empty digest (41_finalize.md R52). -/
theorem execAll_rst_finz (s : State) : execAll [.rst, .finz] s = .next (s.toInitial.respond 0#32) := by
  rw [execAll_cons (exec_rst s), execAll_singleton, exec_finz_of_ne_false s.toInitial_ne]

/-- After `RST` and `INGEST x` the engine holds `x`, so `FINZ` responds its digest (41_finalize.md R58). -/
theorem execAll_checksum (x : List Byte) (s : State) :
    execAll (checksum x) s =
      .next (((s.withAcc (accAfter 0#32 x)).withNe (decide (0 < x.length))).respond (digest x)) := by
  have hholds : ((s.withAcc (accAfter 0#32 x)).withNe (decide (0 < x.length))).Holds x := ⟨rfl, rfl⟩
  rw [checksum, execAll_rst_ingest_append, execAll_singleton, exec_finz, hholds.finzDigest_eq_digest]

/-- Further bytes continue the message that `CHECKSUM x` leaves. -/
theorem execAll_checksum_ingest (x y : List Byte) (s : State) :
    execAll (checksum x ++ ingest y) s =
      .next (((s.withAcc (accAfter 0#32 (x ++ y))).withNe (decide (0 < (x ++ y).length))).respond (digest x)) := by
  have hne : (decide (0 < x.length) || decide (0 < y.length)) = decide (0 < (x ++ y).length) := by
    rw [← Bool.decide_or, decide_eq_decide, List.length_append, Nat.add_pos_iff_pos_or_pos]
  rw [execAll_append (execAll_checksum x s), execAll_ingest, accAfter_append, ← hne]
  rfl

/-- A finalize command leaves the state of `Step` (41_finalize.md R53). -/
theorem specStep_fst_of_finalize {i : Instr} (h : i = .finz ∨ i = .finb) (e : EngineState) : (specStep e i).1 = e := by
  obtain ⟨acc, ne⟩ := e
  obtain rfl | rfl := h
  · cases ne <;> rfl
  · rfl

/-- Deleting the finalize commands keeps the final state. -/
theorem specRun_filter_fst (is : List Instr) (e : EngineState) :
    (specRun e (is.filter fun i => decide (i ≠ .finz ∧ i ≠ .finb))).1 = (specRun e is).1 := by
  induction is generalizing e with
  | nil => rfl
  | cons i is ih =>
    by_cases hi : i = .finz ∨ i = .finb
    · rw [List.filter_cons_of_neg (by simpa [← not_or] using hi), ih, specRun, specStep_fst_of_finalize hi]
    · rw [List.filter_cons_of_pos (by simpa [← not_or] using hi), specRun, specRun, ih]

end Sys2Proof.Machine
end

section
/-! PROOFS. Several engines: a step of one is its own step and leaves the others, and under a schedule each engine runs
as often as the schedule names it (60_exceptions.md R79). -/

namespace Sys2Proof.Machine

/-- A step of engine `n`: it takes its own step, if it exists, and no other engine changes. -/
theorem stepEngine_eq_next (n : Nat) (engines : List State) :
    ∃ engines', stepEngine n engines = .next engines' ∧ engines'.length = engines.length ∧
      (∀ m, m ≠ n → engines'[m]? = engines[m]?) ∧
      (∀ s, engines[n]? = some s → ∃ t, step s = .next t ∧ engines'[n]? = some t) := by
  match hn : engines[n]? with
  | none => exact ⟨engines, by simp [stepEngine, hn], rfl, fun m _ => rfl, fun s hs => nomatch hs⟩
  | some s =>
    obtain ⟨t, ht⟩ := s.goesOn
    obtain ⟨hlt, -⟩ := List.getElem?_eq_some_iff.mp hn
    refine ⟨engines.set n t, by simp [stepEngine, hn, ht], List.length_set, ?others, ?own⟩
    case others => exact fun m hm => List.getElem?_set_ne hm.symm
    case own =>
      rintro _ ⟨⟩
      exact ⟨t, ht, List.getElem?_set_self hlt⟩

/-- Under a schedule every engine takes as many of its own steps as the schedule names it, whatever the others do. -/
theorem runEngines_eq_next (schedule : List Nat) (engines : List State) :
    ∃ engines', runEngines schedule engines = .next engines' ∧
      ∀ n s, engines[n]? = some s →
        ∃ t, Sys2Proof.core.run (schedule.count n) s = .next t ∧ engines'[n]? = some t := by
  induction schedule generalizing engines with
  | nil => exact ⟨engines, rfl, fun n s hs => ⟨s, rfl, hs⟩⟩
  | cons k ks ih =>
    obtain ⟨engines₁, hstep, -, hothers, hown⟩ := stepEngine_eq_next k engines
    obtain ⟨engines₂, hrun, hengine⟩ := ih engines₁
    refine ⟨engines₂, by simp [runEngines, hstep, hrun], fun n s hs => ?_⟩
    by_cases hn : n = k
    · subst hn
      obtain ⟨t, ht, hget⟩ := hown s hs
      rw [List.count_cons_self, run_succ ht]
      exact hengine n t hget
    · rw [List.count_cons_of_ne (Ne.symm hn)]
      exact hengine n s ((hothers n hn).trans hs)

end Sys2Proof.Machine
end

section
/-! PROOFS. The statements of 42_control_and_sequences.md: `RST` (R60), the pseudo-instructions (R61 to R64), `Step` and
the laws of sequences (R66, R67). -/

namespace Sys2Proof.Machine

/-- Settles O7: the word of `op` 00 and the equation of `RST`; the cases of a command and of a step show what clears
`NE`. -/
theorem rstReturnsToInitialState : Obligations.RstReturnsToInitialState := by
  unfold Obligations.RstReturnsToInitialState
  refine ⟨rfl, decode_joinFields_rst, exec_rst, ?unchanged, fun i s t => eq_rst_of_exec_clears_ne,
    fun s t => presented_of_step_clears_ne, fun s _ _ => execAll_rst_finz s⟩
  case unchanged =>
    rintro ⟨acc, ne, presented, responses⟩ rfl rfl
    rfl

/-- Settles O34: `RST` and `INGEST x` leave the engine holding `x`, whose digest `FINZ` responds, and further bytes
continue `x`. -/
theorem checksumIsTheDigestFunction : Obligations.ChecksumIsTheDigestFunction := by
  unfold Obligations.ChecksumIsTheDigestFunction
  refine ⟨fun x => rfl, execAll_checksum, execAll_checksum_ingest, rfl, ?nonempty, by decide, by decide, by decide⟩
  case nonempty =>
    intro x hx
    rw [digest, List.isEmpty_eq_false_iff.mpr hx]
    rfl

/-- Settles O36: each command is one line of `Step`, a sequence is its run, and the canonical words of a sequence are
taken one a step. -/
theorem runsRefineSpecStep : Obligations.RunsRefineSpecStep := by
  unfold Obligations.RunsRefineSpecStep
  exact ⟨fun acc ne b => ⟨rfl, rfl, rfl, rfl, rfl⟩, exec_eq_specStep, execAll_eq_specRun, rfl,
    fun is rest s => run_commandEvents⟩

/-- Settles O38: after `RST` a sequence is a run of `Step` from `(0, 0)`; `Step` leaves the state at a finalize; and an
engine's run does not depend on the schedule beyond how often it is named. -/
theorem sequenceLawsHold : Obligations.SequenceLawsHold := by
  unfold Obligations.SequenceLawsHold
  refine ⟨?afterRst, ?deleted, ?nonempty, exec_finz_of_ne_false State.reset_ne, execAll_rst_finz, ?ingest, by decide,
    ?engines⟩
  case afterRst =>
    intro is s s'
    exact ⟨_, _, (specRun (0#32, false) is).2, (execAll_cons (exec_rst s)).trans (execAll_eq_specRun is _),
      (execAll_cons (exec_rst s')).trans (execAll_eq_specRun is _), rfl, rfl, rfl, rfl⟩
  case deleted =>
    intro is s
    refine ⟨_, _, execAll_eq_specRun is s, execAll_eq_specRun _ s, ?_, ?_⟩
    · rw [specRun_filter_fst]
    · rw [specRun_filter_fst]
  case nonempty =>
    intro x s t h
    rw [execAll_cons (exec_rst s), execAll_ingest] at h
    cases h
    simp
  case ingest => exact fun x s => ⟨List.length_map _, rfl, _, execAll_ingest x s⟩
  case engines =>
    intro is n m schedule engines s hn hm hp hcountn hcountm
    have hrun : Sys2Proof.core.run is.length s = execAll is { s with presented := [] } :=
      run_commandEvents (by rw [hp, List.append_nil])
    obtain ⟨engines', hengines, hengine⟩ := runEngines_eq_next schedule engines
    obtain ⟨t, ht, hgetn⟩ := hengine n s hn
    obtain ⟨u, hu, hgetm⟩ := hengine m s hm
    rw [hcountn, hrun] at ht
    rw [hcountm, hrun] at hu
    cases ht.symm.trans hu
    exact ⟨engines', t, hengines, hgetn, hgetm, ht⟩

/-- Settles O42: `CONSTRUCT` is the one command `RST`, `INGEST` a map over the bytes, and the six lines are
assembled by evaluation. -/
theorem pseudoInstructionsExpand : Obligations.PseudoInstructionsExpand := by
  unfold Obligations.PseudoInstructionsExpand
  refine ⟨rfl, ?construct, rfl, fun s => rfl, fun b x => rfl, ingest_append, fun x s => ⟨rfl, _, execAll_ingest x s⟩,
    rfl, rfl, fun n => rfl, by decide, by decide, by decide, by decide, by decide, by decide⟩
  case construct => exact fun c s => execAll_singleton .rst s

end Sys2Proof.Machine
end

section
/-! PROOFS. How many responses a command and a step add: none or one (42_control_and_sequences.md R66). -/

namespace Sys2Proof.Machine

/-- `RST` and `UPD` respond nothing, each finalize command one word (30_encoding.md R34). -/
theorem exec_adds_at_most_one_response {i : Instr} {s t : State} (h : exec i s = .next t) :
    t.responses = s.responses ∨ ∃ d, t.responses = s.responses ++ [d] := by
  obtain ⟨-, rfl⟩ | ⟨b, -, rfl⟩ | ⟨-, rfl⟩ | ⟨-, rfl⟩ := exec_cases h
  · exact .inl s.toInitial_responses
  · exact .inl rfl
  · exact .inr ⟨s.finzDigest, s.respond_responses _⟩
  · exact .inr ⟨fin32 s.acc, s.respond_responses _⟩

/-- Holding and hardware reset respond nothing, and a command word what its command does. -/
theorem step_adds_at_most_one_response {s t : State} (h : step s = .next t) :
    t.responses = s.responses ∨ ∃ d, t.responses = s.responses ++ [d] := by
  obtain ⟨-, rfl⟩ | ⟨c, rest, -, rfl⟩ | ⟨w, rest, -, hexec⟩ := step_cases h
  · exact .inl rfl
  · exact .inl (State.toInitial_responses _)
  · exact exec_adds_at_most_one_response (s := { s with presented := rest }) hexec

end Sys2Proof.Machine
end

section
/-! PROOFS. The statements of 60_exceptions.md: nothing fails (R70), and hardware reset wins over a command presented
with it (R73). -/

namespace Sys2Proof.Machine

/-- Settles O23: every command and every step ends in a next state, and the cases of each show what it responds. -/
theorem nothingFaultsOrIsRefused : Obligations.NothingFaultsOrIsRefused := by
  unfold Obligations.NothingFaultsOrIsRefused
  refine ⟨?exec, fun w s => (s.presentFirst w).goesOn, ?step⟩
  case exec =>
    intro i s
    obtain ⟨t, ht⟩ := exec_eq_next i s
    exact ⟨t, ht, exec_adds_at_most_one_response ht⟩
  case step =>
    intro s
    obtain ⟨t, ht⟩ := s.goesOn
    exact ⟨t, ht, step_adds_at_most_one_response ht⟩

/-- Settles O19: the step is hardware reset of the state in which the event has been taken, whatever command coincides
with it. -/
theorem hardwareResetWins : Obligations.HardwareResetWins := by
  unfold Obligations.HardwareResetWins
  intro s c rest hp
  rw [step_of_presented_reset hp, hardwareReset_eq]
  rfl

end Sys2Proof.Machine
end

section
/-! PROOFS. The two finalize commands in a row: each responds from the state before them (41_finalize.md R53). -/

namespace Sys2Proof.Machine

theorem execAll_finz_finb (s : State) :
    execAll [.finz, .finb] s = .next ((s.respond s.finzDigest).respond (fin32 s.acc)) := by
  rw [execAll_cons (exec_finz s), execAll_singleton, exec_finb, State.respond_acc]

theorem State.respond_respond (s : State) (d e : Word32) :
    (s.respond d).respond e = { s with responses := s.responses ++ [d, e] } :=
  congrArg (State.mk s.acc s.ne s.presented) (List.append_assoc s.responses [d] [e])

/-- In the reset state both finalize commands respond 0 (10_state.md R19). -/
theorem execAll_finz_finb_of_reset_values {s : State} (hacc : s.acc = 0#32) (hne : s.ne = false) :
    execAll [.finz, .finb] s = .next { s with responses := s.responses ++ [0#32, 0#32] } := by
  rw [execAll_finz_finb, ← s.respond_respond 0#32 0#32, State.finzDigest_eq_zero_iff.mpr hne, hacc, fin32_zero]

end Sys2Proof.Machine
end

section
/-! PROOFS. The statements of 70_reset_and_hazards.md: hardware reset is `RST` (R80). -/

namespace Sys2Proof.Machine

/-- Settles O20: hardware reset and `RST` both return the engine to its initial state, where the finalize commands
respond 0; as a step, hardware reset acts on the state in which the event has been taken. -/
theorem hardwareResetEqualsRst : Obligations.HardwareResetEqualsRst := by
  unfold Obligations.HardwareResetEqualsRst
  intro s c
  have eq_rst (s' : State) : hardwareReset c s' = exec .rst s' := by rw [hardwareReset_eq, exec_rst]
  refine ⟨eq_rst s, ?after, ?step⟩
  case after =>
    intro t ht
    rw [hardwareReset_eq] at ht
    cases ht
    exact ⟨s.toInitial_acc, s.toInitial_ne, execAll_finz_finb_of_reset_values s.toInitial_acc s.toInitial_ne⟩
  case step =>
    intro rest hp
    rw [step_of_presented_reset hp, eq_rst]

end Sys2Proof.Machine
end

section
/-! PROOFS. The decoder on numbers, and on a word placed for the host's check (30_encoding.md R30, R31). -/

namespace Sys2Proof.Machine

/-- A command word read as a number decodes as the word. -/
theorem decodeNumber_toNat (w : CommandWord) : decodeNumber w.toNat = .ok (decode w) := by
  have hrange : commandWordInRange w.toNat = true := decide_eq_true w.isLt
  rw [decodeNumber, if_pos hrange, BitVec.ofNat_toNat, BitVec.setWidth_eq]

/-- No two commands share a word. -/
theorem encode_injective : Function.Injective encode := Function.LeftInverse.injective decode_encode

/-- A number that decodes to a command is a 10-bit word of that command. -/
theorem decodeTableWord_eq_some {nbits w : Nat} {i : Instr} (h : decodeTableWord nbits w = some i) :
    commandWordInRange w = true ∧ decode (BitVec.ofNat 10 w) = i := by
  by_cases hrange : commandWordInRange w = true
  · simp only [decodeTableWord, decodeNumber, if_pos hrange, Option.some.injEq] at h
    exact ⟨hrange, h⟩
  · simp only [decodeTableWord, decodeNumber, if_neg hrange, reduceCtorEq] at h

/-- A 10-bit word placed for the host's check is presented ahead of everything else. -/
theorem State.withFetchWord_of_inRange {w : Nat} (h : commandWordInRange w = true) (s : State) (nbits : Nat) :
    s.withFetchWord nbits w = s.presentFirst (BitVec.ofNat 10 w) := if_pos h

end Sys2Proof.Machine
end

section
/-! PROOFS. The statements on decoding and the step that runs what is decoded (30_encoding.md R31;
42_control_and_sequences.md R66; 95_test_vectors.md section 2.9). -/

namespace Sys2Proof.Machine

/-- Settles O13: the decoder is a left inverse of the encoder, so the encoder is injective, and a word's number decodes
as the word. -/
theorem decodeInvertsEncode : Obligations.DecodeInvertsEncode := by
  unfold Obligations.DecodeInvertsEncode
  refine ⟨fun i _ => decode_encode i, ?number, fun i j _ _ h => encode_injective h⟩
  case number =>
    intro i _
    rw [decodeNumber_toNat, decode_encode]

/-- Settles O16: the ten words decoded. -/
theorem writtenWordsDecode : Obligations.WrittenWordsDecode := by
  unfold Obligations.WrittenWordsDecode
  decide

/-- Settles O17: the step's equation for a presented command word. -/
theorem stepRunsDecodedCommand : Obligations.StepRunsDecodedCommand := by
  unfold Obligations.StepRunsDecodedCommand
  exact fun s w rest => step_of_presented_command

/-- Settles O18: a number that decodes is a 10-bit word, so it is presented first, and the next step takes it. -/
theorem fetchWordRunsNext : Obligations.FetchWordRunsNext := by
  unfold Obligations.FetchWordRunsNext
  intro s nbits w i h
  obtain ⟨hrange, hdecode⟩ := decodeTableWord_eq_some h
  rw [State.withFetchWord_of_inRange hrange, step_presentFirst, hdecode]

end Sys2Proof.Machine
end

section
/-! PROOFS. The statements of the two step invariants: `NE = 0` implies `ACC = 0` (10_state.md R12), and the message
held (20_memory.md R27, 10_state.md R11). -/

namespace Sys2Proof.Machine

/-- Settles O24: the accumulator of the reset state is 0, whatever the ports show. -/
theorem invariantHoldsAfterReset : Obligations.InvariantHoldsAfterReset := by
  unfold Obligations.InvariantHoldsAfterReset
  exact ⟨State.emptyMeansZero_of_acc State.reset_acc, fun p r => State.emptyMeansZero_of_acc State.reset_acc⟩

/-- Settles O25: a step holds, resets or executes a command, and each keeps the invariant. -/
theorem everyStepKeepsEmptyMeansZero : Obligations.EveryStepKeepsEmptyMeansZero := by
  unfold Obligations.EveryStepKeepsEmptyMeansZero
  exact fun s t => step_keeps_emptyMeansZero

/-- Settles O47: a taken event advances the message held, an idle step leaves the state, and the fields of the reset
state are those of the empty message. -/
theorem everyStepAdvancesTheHeldMessage : Obligations.EveryStepAdvancesTheHeldMessage := by
  unfold Obligations.EveryStepAdvancesTheHeldMessage
  refine ⟨fun s t m e rest => step_advances_holds, ?idle, State.reset_acc, State.reset_ne⟩
  case idle =>
    intro s t m hs hp h
    rw [step_of_presented_nil hp] at h
    cases h
    exact ⟨hs, rfl⟩

end Sys2Proof.Machine
end

section
/-! PROOFS. The statements on the primitives (00_scope.md R5, 30_encoding.md R32), the frame of every command
(10_state.md R18), `UPD` (40_ingest.md R44) and `FINZ` (41_finalize.md R52). -/

namespace Sys2Proof.Machine

/-- Settles O1: each primitive is the word operation of that name, over natural numbers. -/
theorem primitivesAreArithmeticModulo : Obligations.PrimitivesAreArithmeticModulo := by
  unfold Obligations.PrimitivesAreArithmeticModulo
  intro a b k c
  refine ⟨BitVec.toNat_add a b, fun _ => ?shl, fun _ => ?shr, fun i _ => BitVec.getLsbD_xor, ?zext, addend_toNat c⟩
  case shl => rw [shl32, BitVec.toNat_shiftLeft, Nat.shiftLeft_eq]
  case shr => rw [shr32, BitVec.toNat_ushiftRight, Nat.shiftRight_eq_div_pow]
  case zext => exact BitVec.toNat_setWidth_of_le (by decide)

/-- Settles O10: with `NE = 0` the invariant gives `ACC = 0`, where both tests answer 0; with `NE = 1` they differ only
at `ACC = 0`, where the remap fires. Without the invariant `(1, 0)` tells them apart. -/
theorem testOnAccAgreesUnderInvariant : Obligations.TestOnAccAgreesUnderInvariant := by
  unfold Obligations.TestOnAccAgreesUnderInvariant
  refine ⟨?agree, ?differ, stateOutsideInvariant, not_emptyMeansZero_stateOutsideInvariant,
    exec_finz_of_ne_false rfl, by decide⟩
  case agree =>
    intro s hs hnot
    refine exec_finz_eq_respond_iff.mpr ?_
    rw [State.finzDigest_eq]
    cases hne : s.ne with
    | false => rw [if_pos (hs hne)]; rfl
    | true => rw [if_neg fun hacc => hnot ⟨hacc, hne⟩]; rfl
  case differ =>
    intro s hacc hne
    exact (exec_finz_eq_respond_iff_of_ne_true hne).mpr (neverZeroDigest_eq_collision_iff.mpr (.inl hacc))

/-- Settles O12: the next state of each command is a write of `ACC` and `NE`, or one response. -/
theorem commandsLeaveTheRestUnchanged : Obligations.CommandsLeaveTheRestUnchanged := by
  unfold Obligations.CommandsLeaveTheRestUnchanged
  intro i s t h
  obtain ⟨rfl, rfl⟩ | ⟨b, rfl, rfl⟩ | ⟨rfl, rfl⟩ | ⟨rfl, rfl⟩ := exec_cases h
  · simp
  · simp
  · simp
  · simp

/-- Settles O28: the three updates evaluated, and the three sequences run from reset. -/
theorem updCanRepeatOrReachZero : Obligations.UpdCanRepeatOrReachZero := by
  unfold Obligations.UpdCanRepeatOrReachZero
  refine ⟨?fixed, ?run⟩
  case fixed =>
    intro r hr s hacc
    have hupdate : ingestByte r.1 r.2 = r.1 := by
      simp only [List.mem_cons, List.not_mem_nil, or_false] at hr
      obtain rfl | rfl | rfl := hr <;> rfl
    rw [exec_upd, hacc, hupdate, ← hacc]
    rfl
  case run =>
    intro r hr
    simp only [List.mem_cons, List.not_mem_nil, or_false] at hr
    obtain rfl | rfl | rfl := hr <;> rfl

end Sys2Proof.Machine
end

section
/-! PROOFS. The statements on sequences, on what reset leaves, and on several engines (60_exceptions.md R79,
70_reset_and_hazards.md R81, R82, R86). -/

namespace Sys2Proof.Machine

/-- Settles O22: the two finalize commands answer from the state before the first reset, and a reset presented first is
the next event taken. -/
theorem preResetStateIsAnsweredAndLeft : Obligations.PreResetStateIsAnsweredAndLeft := by
  unfold Obligations.PreResetStateIsAnsweredAndLeft
  intro k es
  refine ⟨?finalize, fun c => step_of_presented_reset rfl, ?rst⟩
  case finalize =>
    rw [execAll_finz_finb, State.respond_respond, State.finzDigest_eq]
    cases hne : Config.preResetNe k <;> simp [State.powerUp, hne, neverZeroDigest]
  case rst =>
    rw [step_of_presented_command rfl, decode_encode, exec_rst]
    rfl

/-- Settles O35: without a reset `y` continues the message that `CHECKSUM x` leaves; `CHECKSUM y` starts anew from any
state. -/
theorem withoutResetMessagesConcatenate : Obligations.WithoutResetMessagesConcatenate := by
  unfold Obligations.WithoutResetMessagesConcatenate
  intro x y s
  constructor
  case left =>
    have hholds : (((s.withAcc (accAfter 0#32 (x ++ y))).withNe (decide (0 < (x ++ y).length))).respond
        (digest x)).Holds (x ++ y) := ⟨rfl, rfl⟩
    rw [← List.append_assoc, execAll_append (execAll_checksum_ingest x y s), execAll_singleton, exec_finz,
      hholds.finzDigest_eq_digest, State.respond_respond]
    rfl
  case right =>
    rw [execAll_append (execAll_checksum x s), execAll_checksum]
    simp [State.respond, State.withAcc, State.withNe]

/-- Settles O39: a step of a listed engine is that engine's own step, which always goes on. -/
theorem enginesShareNothing : Obligations.EnginesShareNothing := by
  unfold Obligations.EnginesShareNothing
  exact stepEngine_eq_next

/-- Settles O40: the finalize commands read the state `UPD` leaves, `UPD` the state `RST` leaves, and a sequence only
adds responses. -/
theorem responsesAreImmediateAndStay : Obligations.ResponsesAreImmediateAndStay := by
  unfold Obligations.ResponsesAreImmediateAndStay
  refine ⟨?finalize, ?update, ?stay⟩
  case finalize =>
    intro b s
    rw [execAll_cons (exec_upd b s), execAll_finz_finb, State.respond_respond, State.finzDigest_eq]
    rfl
  case update =>
    intro b s
    rw [execAll_cons (exec_rst s), execAll_singleton, exec_upd]
    rfl
  case stay =>
    intro is s t h
    cases (execAll_eq_specRun is s).symm.trans h
    exact List.take_left

end Sys2Proof.Machine
end

section
/-! PROOFS. An `UPD` line whose operand is one number word, and the values of the digits (30_encoding.md R35). -/

namespace Sys2Proof.Machine

theorem isBlank_eq_false_of_isWordChar {c : Char} (h : isWordChar c = true) : isBlank c = false := by
  by_contra hblank
  simp only [Bool.not_eq_false, isBlank, Bool.or_eq_true, beq_iff_eq] at hblank
  obtain (rfl | rfl) | rfl := hblank <;> exact absurd h (by decide)

theorem ne_singleQuote_of_isWordChar {c : Char} (h : isWordChar c = true) : c ≠ singleQuote := by
  rintro rfl
  exact absurd h (by decide)

/-- An `UPD` line whose operand is one number word: the range error from 256 up, else the octet. -/
theorem assembleLine_upd_number {cs : List Char} {n : Nat} (hword : ∀ c ∈ cs, isWordChar c = true)
    (hn : readNumber cs = some n) :
    (256 ≤ n → assembleLine ("UPD ".toList ++ cs) = .error .operandOutOfRange) ∧
    (n < 256 → assembleLine ("UPD ".toList ++ cs) = .ok [.command (.upd (BitVec.ofNat 8 n))]) := by
  cases cs with
  | nil => cases hn
  | cons c cs =>
    have hc : isWordChar c = true := hword c List.mem_cons_self
    have hline : assembleLine ("UPD ".toList ++ c :: cs) = assembleUpd (c :: cs) :=
      assembleLine_upd (isBlank_eq_false_of_isWordChar hc)
    have hread : readImm (c :: cs) = some (n, []) := by
      rw [readImm_eq_readNumberWord (ne_singleQuote_of_isWordChar hc), readNumberWord_eq hword hn]
    rw [hline, assembleUpd_eq hread]
    exact ⟨fun h => if_neg (Nat.not_lt.mpr h), fun h => if_pos h⟩

/-- The value of a hexadecimal digit by its ASCII code: a decimal digit is its code less 48, a letter of either case its
place in the alphabet plus 9. -/
def hexValue (c : Char) : Nat := if c.isDigit then c.toNat - 48 else c.toNat % 32 + 9

/-- A hexadecimal digit stands in a word and is read as its value. -/
theorem digitValue_of_hexDigit {c : Char} (h : c ∈ "0123456789ABCDEFabcdef".toList) :
    isWordChar c = true ∧ digitValue c = some (hexValue c) ∧ hexValue c < 16 := by
  have all : ("0123456789ABCDEFabcdef".toList.all fun c =>
      isWordChar c && (digitValue c == some (hexValue c) && decide (hexValue c < 16))) = true := by decide
  simpa only [Bool.and_eq_true, beq_iff_eq, decide_eq_true_eq] using List.all_eq_true.mp all c h

/-- A decimal digit is the printed digit of its code less 48. -/
theorem eq_digitOf_of_isDigit {c : Char} (h : c.isDigit = true) :
    c = digitOf (c.toNat - 48) ∧ c.toNat - 48 < 10 := by
  have hrange : 48 ≤ c.toNat ∧ c.toNat ≤ 57 := by
    rw [Char.isDigit, Bool.and_eq_true, decide_eq_true_iff, decide_eq_true_iff] at h
    exact h
  have hprint : ∀ k : Fin 10, Char.ofNat (48 + k) = digitOf k := by decide
  have hvalue : c.toNat - 48 < 10 := by omega
  refine ⟨?_, hvalue⟩
  rw [← hprint ⟨_, hvalue⟩, Nat.add_sub_cancel' hrange.left, Char.ofNat_toNat]

/-- A decimal digit stands in a word and is read as its code less 48. -/
theorem digitValue_of_isDigit {c : Char} (h : c.isDigit = true) :
    isWordChar c = true ∧ digitValue c = some (c.toNat - 48) ∧ c.toNat - 48 < 10 := by
  obtain ⟨hc, hvalue⟩ := eq_digitOf_of_isDigit h
  obtain ⟨hdigit, hword⟩ := digitValue_digitOf (n := c.toNat - 48) (by omega)
  rw [← hc] at hdigit hword
  exact ⟨hword, hdigit, hvalue⟩

/-- A word of decimal digits is read in base 10: it cannot begin with `0x`. -/
theorem readNumber_of_isDigit {ds : List Char} (hne : ds ≠ []) (h : ∀ c ∈ ds, c.isDigit = true) :
    readNumber ds = readDigits 10 0 ds := by
  unfold readNumber
  split
  · exact absurd rfl hne
  · exact absurd (h 'x' (by simp)) (by decide)
  · rfl

theorem readNumber_hex {ds : List Char} (hne : ds ≠ []) : readNumber ('0' :: 'x' :: ds) = readDigits 16 0 ds := by
  rw [readNumber, List.isEmpty_eq_false_iff.mpr hne]
  rfl

end Sys2Proof.Machine
end

section
/-! PROOFS. What the disassembler prints (30_encoding.md R33). -/

namespace Sys2Proof.Machine

/-- What is printed depends on the command alone. -/
theorem disassemble_congr {w w' : CommandWord} (h : decode w = decode w') : disassemble w = disassemble w' := by
  simp only [disassemble, h]

/-- The two printed digits of an octet are read as its number. -/
theorem readNumber_printed_octet (b : Byte) :
    readNumber ['0', 'x', digitOf (b.toNat / 16), digitOf (b.toNat % 16)] = some b.toNat := by
  have hb := b.isLt
  have hhi : b.toNat / 16 < 16 := by omega
  have hlo : b.toNat % 16 < 16 := by omega
  rw [readNumber_hex (by simp)]
  simp [readDigits, digitValue_digitOf hhi, digitValue_digitOf hlo, hhi, hlo, Nat.div_add_mod]

/-- Assembling the printed form of `UPD b`. -/
theorem assembleLine_printed_upd (b : Byte) :
    assembleLine ("UPD 0x".toList ++ [digitOf (b.toNat / 16), digitOf (b.toNat % 16)]) = .ok [.command (.upd b)] := by
  have hb := b.isLt
  obtain ⟨-, hhi⟩ := digitValue_digitOf (n := b.toNat / 16) (by omega)
  obtain ⟨-, hlo⟩ := digitValue_digitOf (n := b.toNat % 16) (by omega)
  have hword : ∀ c ∈ ['0', 'x', digitOf (b.toNat / 16), digitOf (b.toNat % 16)], isWordChar c = true := by
    simp [hhi, hlo, show isWordChar '0' = true by decide, show isWordChar 'x' = true by decide]
  have hline := (assembleLine_upd_number hword (readNumber_printed_octet b)).right hb
  rwa [BitVec.ofNat_toNat, BitVec.setWidth_eq] at hline

/-- Assembling the printed line of a word gives the command the word decodes to. -/
theorem assembleLine_disassemble (w : CommandWord) : assembleLine (disassemble w) = .ok [.command (decode w)] := by
  unfold disassemble
  cases decode w with
  | rst => decide
  | upd b => exact assembleLine_printed_upd b
  | finz => decide
  | finb => decide

end Sys2Proof.Machine
end

section
/-! PROOFS. The statements on the assembler: its operands are never truncated (30_encoding.md R35), and it reads what
the disassembler prints (R33). -/

namespace Sys2Proof.Machine

/-- Settles O43: the printed line is assembled by its command, and outside `UPD` a word decodes as the canonical word of
its `op`. -/
theorem assemblingPrintedWordGivesCommand : Obligations.AssemblingPrintedWordGivesCommand := by
  unfold Obligations.AssemblingPrintedWordGivesCommand
  exact ⟨fun w => ⟨assembleLine_disassemble w, rfl⟩,
    fun op imm8 hop => disassemble_congr (decode_joinFields_of_ne_upd hop imm8)⟩

/-- Settles O44: decimal digits are read as the fold of their values, and the range is tested on that number. -/
theorem decimalOperandIsNeverTruncated : Obligations.DecimalOperandIsNeverTruncated := by
  unfold Obligations.DecimalOperandIsNeverTruncated
  intro ds hne hds n
  have hn : readNumber ds = some n :=
    (readNumber_of_isDigit hne hds).trans (readDigits_eq_foldl (fun c hc => (digitValue_of_isDigit (hds c hc)).right) 0)
  exact assembleLine_upd_number (fun c hc => (digitValue_of_isDigit (hds c hc)).left) hn

/-- Settles O45: hexadecimal digits are read as the fold of their values, and the range is tested on that number. -/
theorem hexadecimalOperandIsNeverTruncated : Obligations.HexadecimalOperandIsNeverTruncated := by
  unfold Obligations.HexadecimalOperandIsNeverTruncated
  intro ds hne hds n
  have hn : readNumber ('0' :: 'x' :: ds) = some n :=
    (readNumber_hex hne).trans (readDigits_eq_foldl (fun c hc => (digitValue_of_hexDigit (hds c hc)).right) 0)
  have hword : ∀ c ∈ '0' :: 'x' :: ds, isWordChar c = true :=
    List.forall_mem_cons.mpr ⟨by decide, List.forall_mem_cons.mpr
      ⟨by decide, fun c hc => (digitValue_of_hexDigit (hds c hc)).left⟩⟩
  exact assembleLine_upd_number hword hn

/-- Settles O46: between single quotes any character is read by its ASCII code, which is an octet. -/
theorem characterOperandIsItsAsciiCode : Obligations.CharacterOperandIsItsAsciiCode := by
  unfold Obligations.CharacterOperandIsItsAsciiCode
  intro c
  have hline : assembleLine ("UPD '".toList ++ [c, singleQuote]) = assembleUpd [singleQuote, c, singleQuote] :=
    assembleLine_upd (by decide)
  have himm : readImm [singleQuote, c, singleQuote] = (asciiCode c).map fun n => (n, []) := rfl
  rw [hline]
  constructor
  case left =>
    intro h
    have hcode : readImm [singleQuote, c, singleQuote] = some (c.toNat, []) := by rw [himm, asciiCode, if_pos h]; rfl
    rw [assembleUpd_eq hcode, if_pos (by omega)]
  case right =>
    intro h
    have hcode : readImm [singleQuote, c, singleQuote] = none := by rw [himm, asciiCode, if_neg (by omega)]; rfl
    simp only [assembleUpd, hcode]

end Sys2Proof.Machine
end
